-- ==== Sys2Proof/Word.lean ====
section
/-! DEFINITION. The decimal word (00_scope.md R8, R10; 10_state.md R16, R25): every value of the machine is a
mathematical integer written in decimal, and a word is an integer from -999 to 999. There are no bit fields. -/

namespace Sys2Proof

/-- A finite sequence of characters: a source text, a source line or a token (R66, R69). -/
abbrev Text := List Char

/-- `WMIN` and `WMAX` (R8). -/
def wordMin : Int := -999
def wordMax : Int := 999

/-- `InWord(v)`: -999 ≤ v ≤ 999 (R10). -/
abbrev InWord (v : Int) : Prop := wordMin ≤ v ∧ v ≤ wordMax

/-- `digit_k(w)`, counting from 0 at the units (R10). -/
def digit (k w : Nat) : Nat := w / 10 ^ k % 10

end Sys2Proof
end

