-- ==== Sys2Proof/Machine/Lexer.lean ====
section
/-! DEFINITION. The lexer: lines, tokens and integer literals (40_lexer_symtab.md R66 to R70; 41_assembler.md R87). -/

namespace Sys2Proof.Machine

/-- `lines(SRC)` from a line whose characters so far are `cur`: a line feed ends the line before it, and a final line
feed starts no line (R67, D23). -/
def linesFrom (cur : Text) : Text → List Text
  | [] => if cur = [] then [] else [cur]
  | c :: cs => if c = '\n' then cur :: linesFrom [] cs else linesFrom (cur ++ [c]) cs

/-- `lines(SRC)` (R67). -/
def lines (src : Text) : List Text := linesFrom [] src

/-- CR, VT and FF (R68). -/
def unsupportedChar (c : Char) : Bool :=
  decide (c = Char.ofNat 13) || decide (c = Char.ofNat 11) || decide (c = Char.ofNat 12)

/-- The number of the first line, counting from `k`, that holds CR, VT or FF (R68, D24). -/
def firstUnsupported (k : Nat) : List Text → Option Nat
  | [] => none
  | l :: ls => if l.any unsupportedChar then some k else firstUnsupported (k + 1) ls

/-- The separators inside a line: space and tab; a line feed cannot occur there (R69). -/
def separator (c : Char) : Bool := decide (c = ' ') || decide (c = '\t')

/-- The tokens from a token whose characters so far are `cur` (R69). -/
def tokensFrom (cur : Text) : Text → List Text
  | [] => if cur = [] then [] else [cur]
  | c :: cs =>
    if separator c then (if cur = [] then tokensFrom [] cs else cur :: tokensFrom [] cs)
    else tokensFrom (cur ++ [c]) cs

/-- `tokens(line)`: the maximal non-empty runs of non-separators, in order (R69). -/
def tokens (line : Text) : List Text := tokensFrom [] line

/-- The value of a decimal digit `"0" .. "9"` (R87). -/
def digitValue (c : Char) : Option Nat :=
  if '0' ≤ c ∧ c ≤ '9' then some (c.toNat - '0'.toNat) else none

/-- The digits of a literal after the value `v` of those before them. -/
def digitsValue (v : Nat) : Text → Option Nat
  | [] => some v
  | c :: cs =>
    match digitValue c with
    | some d => digitsValue (v * 10 + d) cs
    | none => none

/-- `digit { digit }`: at least one digit, and nothing else (R87). -/
def unsignedValue : Text → Option Nat
  | [] => none
  | c :: cs => digitsValue 0 (c :: cs)

/-- `IntLiteral := [ "+" | "-" ] digit { digit }`, matched against the whole token; its exact value (R87, D17). -/
def intLiteral : Text → Option Int
  | [] => none
  | c :: cs =>
    if c = '-' then (unsignedValue cs).map fun (n : Nat) => -(n : Int)
    else if c = '+' then (unsignedValue cs).map fun (n : Nat) => (n : Int)
    else (unsignedValue (c :: cs)).map fun (n : Nat) => (n : Int)

end Sys2Proof.Machine
end

