-- ==== Sys2Proof/Config.lean ====
section
/-! DEFINITION. The implementation parameters of 00_scope.md R8 and R9, this hardware's values of them, and the two
values the spec leaves to the implementation (46_io.md R119; 93_implementation_defined.md §1). -/

namespace Sys2Proof

/-- The implementation parameters (R8): "A model may take `N`, `SYMTAB_CAP` and `INVALID_OPCODE_FATAL` as arguments". -/
structure Params where
  /-- `N`, the number of memory cells. -/
  n : Nat
  /-- `SYMTAB_CAP`, the symbol table's capacity in entries, the 13 mnemonics included. -/
  symtabCap : Nat
  /-- `INVALID_OPCODE_FATAL` (R126, D7). -/
  invalidOpcodeFatal : Bool
deriving DecidableEq, Repr

namespace Config

/-- This hardware's parameters (R8). -/
def hardware : Params := { n := 100, symtabCap := 256, invalidOpcodeFatal := false }

/-- The text of a `Chr(v)` event with `v < 0`: implementation-defined, "any string, possibly empty" (R119;
93_implementation_defined.md §1). A free value, log 12. -/
opaque negativeChrText : Int → Text

/-- How the output stream carries a character of code point 128 or more: "as one byte or as a multi-byte encoding is
implementation-defined" (R119). A free value, log 12. -/
opaque wideCharBytes : Char → List (BitVec 8)

end Config

/-- R9: the rules apply to `1 ≤ N ≤ 100`. The capacity must hold the thirteen entries of `initialize()` (R72, log 4). -/
abbrev Params.ok (P : Params) : Prop := 1 ≤ P.n ∧ P.n ≤ 100 ∧ 13 ≤ P.symtabCap

end Sys2Proof
end

