-- ==== Sys2Proof/Syntax.lean ====
section
/-! DEFINITION. The instructions (30_encoding.md R50, R54), the symbol-table entries (10_state.md R27) and the slot
states of pass 2 (R28, R81). -/

namespace Sys2Proof

/-- One constructor per mnemonic of the opcode table. `a` is the two-digit operand field (R50), 0 to 99; HLT ignores its
digits (R112) but they are part of the word. `sel` is the selector of an unassigned word of opcode 900 (R56, R126). -/
inductive Instr where
  | hlt (a : Nat)
  | add (a : Nat)
  | sub (a : Nat)
  | sta (a : Nat)
  | ldd (a : Nat)
  | lda (a : Nat)
  | bra (a : Nat)
  | brz (a : Nat)
  | brp (a : Nat)
  | inp
  | out
  | prt
  | unassigned (sel : Nat)
deriving DecidableEq, Repr

/-- The kind of a symbol-table entry (R27). -/
inductive SymbolKind where
  | label
  | mnemonic
deriving DecidableEq, Repr

/-- A symbol-table entry (R27): the key is the name itself (R71). -/
structure Symbol where
  kind : SymbolKind
  key : Text
  value : Int
deriving DecidableEq, Repr

/-- The slot states of pass 2: "Label=0, Op=1, Data=2", and `Extra` for any later position (R28, D22). -/
inductive Slot where
  | label
  | op
  | data
  | extra
deriving DecidableEq, Repr

end Sys2Proof
end

