-- ==== Sys2Proof/WellFormed.lean ====
section
/-! DEFINITION. Which instructions some word encodes (30_encoding.md R50, R54, R56). -/

namespace Sys2Proof

/-- The operand field holds 0 to 99 (R50, R55). -/
abbrev OperandField (a : Nat) : Prop := a ≤ 99

/-- The selectors of the unassigned words: 0 and 4 to 99 (R53, R56). -/
abbrev UnassignedSelector (sel : Nat) : Prop := sel ≤ 99 ∧ sel ≠ 1 ∧ sel ≠ 2 ∧ sel ≠ 3

/-- An instruction is well formed when its operand fits the two-digit field and an unassigned selector is not one of
the I/O instructions' (R50, R53, R56). -/
def Instr.wf : Instr → Bool
  | .hlt a | .add a | .sub a | .sta a | .ldd a | .lda a | .bra a | .brz a | .brp a => decide (OperandField a)
  | .inp | .out | .prt => true
  | .unassigned sel => decide (UnassignedSelector sel)

end Sys2Proof
end

