-- ==== Sys2Proof/Decode.lean ====
section
/-! DEFINITION. The encoding tables of 30_encoding.md: the decoder (R51 to R54), the encoder (R58) and the mnemonics'
names and values (R61). -/

namespace Sys2Proof

/-- What the decoder makes of an integer (R52): an instruction (the unassigned words among them), an invalid word
(-999 to -1), or no word at all, which no cell can hold (log 8). -/
inductive Decoded where
  | instr (i : Instr)
  | invalidWord (w : Int)
  | noWord (w : Int)
deriving DecidableEq, Repr

/-- The IO family, dispatched on the whole two-digit operand (R53). -/
def decodeIo (operand : Nat) : Instr :=
  match operand with
  | 1 => .inp
  | 2 => .out
  | 3 => .prt
  | sel => .unassigned sel

/-- `opcode = 100 × (w div 100)` and `operand = w mod 100` select the instruction (R51, R54), for `w` in 0 to 999. -/
def decodeDigits (w : Nat) : Instr :=
  let operand := w % 100
  match digit 2 w with
  | 0 => .hlt operand
  | 1 => .add operand
  | 2 => .sub operand
  | 3 => .sta operand
  | 4 => .ldd operand
  | 5 => .lda operand
  | 6 => .bra operand
  | 7 => .brz operand
  | 8 => .brp operand
  | _ => decodeIo operand

/-- The decoder, total over every integer (R52, D6): negative words have no decoding. -/
def decode (w : Int) : Decoded :=
  if ¬ InWord w then .noWord w
  else if w < 0 then .invalidWord w
  else .instr (decodeDigits w.toNat)

/-- The value of a mnemonic, or the whole word of an I/O instruction (R58, R61), for the instructions' constructors. -/
def opcodeBase : Instr → Nat
  | .hlt _ => 0
  | .add _ => 100
  | .sub _ => 200
  | .sta _ => 300
  | .ldd _ => 400
  | .lda _ => 500
  | .bra _ => 600
  | .brz _ => 700
  | .brp _ => 800
  | .inp => 901
  | .out => 902
  | .prt => 903
  | .unassigned _ => 900

/-- The operand digits added to the value (R58); INP, OUT and PRT add none. -/
def operandField : Instr → Nat
  | .hlt a | .add a | .sub a | .sta a | .ldd a | .lda a | .bra a | .brz a | .brp a => a
  | .inp | .out | .prt => 0
  | .unassigned sel => sel

/-- The word of an instruction (R50, R58): `word = opcode_base + operand`. -/
def encode (i : Instr) : Int := (opcodeBase i + operandField i : Nat)

/-- The thirteen mnemonics with their values, in order (R61). -/
def mnemonicTable : List (Text × Int) :=
  [("HLT".toList, 0), ("ADD".toList, 100), ("SUB".toList, 200), ("STA".toList, 300), ("LDD".toList, 400),
   ("LDA".toList, 500), ("BRA".toList, 600), ("BRZ".toList, 700), ("BRP".toList, 800), ("INP".toList, 901),
   ("OUT".toList, 902), ("PRT".toList, 903), ("DAT".toList, 0)]

/-- The mnemonics whose operand is required (R63). -/
def operandRequired : List Text :=
  ["ADD".toList, "SUB".toList, "STA".toList, "LDD".toList, "LDA".toList, "BRA".toList, "BRZ".toList, "BRP".toList]

/-- The mnemonics whose operand is resolved and then ignored (R63, R84). -/
def operandIgnored : List Text := ["HLT".toList, "INP".toList, "OUT".toList, "PRT".toList]

/-- The host's view of the decoder: the table's word, one decimal number of up to three digits, given as the natural
number `w`. The table numbers digits, not bits; `nbits` plays no part, since every instruction is one whole word
(R57, R59; log 6). -/
def decodeTableWord (_nbits w : Nat) : Option Instr :=
  match decode (w : Int) with
  | .instr i => some i
  | .invalidWord _ => none
  | .noWord _ => none

end Sys2Proof
end

