-- ==== Sys2Proof/Machine/SymbolTable.lean ====
section
/-! DEFINITION. The symbol table's operations over its list of entries (40_lexer_symtab.md R71 to R75). -/

namespace Sys2Proof.Machine

/-- `initialize()`: the thirteen mnemonic entries, in the order of R61, and no labels (R72). -/
def initializeSymtab : List Symbol :=
  mnemonicTable.map fun e => { kind := .mnemonic, key := e.1, value := e.2 }

/-- `lookup(name)`: the first entry whose key is the same sequence of characters, or none (R71, R73). -/
def lookup (name : Text) : List Symbol → Option Symbol
  | [] => none
  | e :: rest => if e.key = name then some e else lookup name rest

/-- `insert(kind, name, value)`: appended at the end, unless the table holds `SYMTAB_CAP` entries (R74); `none` stands
for the failure that the caller reports as `SymbolTableFull`. -/
def insertSymbol (cap : Nat) (kind : SymbolKind) (name : Text) (value : Int) (tab : List Symbol) :
    Option (List Symbol) :=
  if tab.length = cap then none else some (tab ++ [{ kind := kind, key := name, value := value }])

end Sys2Proof.Machine
end

