-- ==== Sys2Proof/Machine/State.lean ====
section
/-! DEFINITION. The machine's state (10_state.md): the CPU's tuple (R15), the launch parameters (R23, R66), the
implementation parameters (R8), the assembler's table and pass registers (R27, R28) and the phase (R145, R147). Plain
data. -/

namespace Sys2Proof.Machine

/-- A memory cell that does not hold 0, with its address. The smallest addressable unit is the word (R34, log 7). -/
abbrev Cell := Nat × Int

/-- The memory (R25, R33): addresses strictly rising, and no entry equal to 0, which an unlisted cell holds
(R29, R42). -/
abbrev Memory := List Cell

/-- One entry of the output sink (R118). -/
inductive Event where
  | num (v : Int)
  | chr (v : Int)
deriving DecidableEq, Repr

/-- `run` (R20). -/
inductive RunState where
  | running
  | halted
deriving DecidableEq, Repr

/-- The execution errors, codes 11 to 16 (R127). -/
inductive ExecErrorKind where
  | memoryOverflow
  | invalidInstructionWord
  | addressOutOfRange
  | accumulatorOverflow
  | inputOutOfRange
  | invalidOpcode
deriving DecidableEq, Repr

/-- `status` (R21): `info` is the value the error names, or none. -/
inductive Status where
  | none
  | ok
  | error (kind : ExecErrorKind) (addr : Nat) (info : Option Int)
deriving DecidableEq, Repr

/-- The assembly errors, codes 1 to 9 (R127). -/
inductive AsmErrorKind where
  | sourceNotFound
  | unsupportedWhitespace
  | memoryOverflow
  | symbolTableFull
  | tooManyTokens
  | expectedMnemonic
  | undefinedSymbol
  | missingOperand
  | wordOutOfRange
deriving DecidableEq, Repr

/-- `Err(kind, line)` of R76; for `MemoryOverflow` the recorded value is `N`, for `SourceNotFound` there is none
(R127). -/
structure AsmError where
  kind : AsmErrorKind
  info : Option Nat
deriving DecidableEq, Repr

/-- Where the machine stands in the order of R145 and R147. -/
inductive Phase where
  /-- The start of an assembly, `SRC` given. -/
  | source
  /-- Stages 1 to 4 of R76 succeeded; pass 1 is next. -/
  | pass1
  /-- Pass 1 is complete; pass 2 is next. -/
  | pass2
  /-- The assembly answered `Ok(image)`; CPU reset is next. -/
  | assembled
  /-- CPU reset is done: the CPU runs, or has halted (`run`). -/
  | execution
  /-- The assembly answered `Err`: no CPU reset follows (R129, R145). -/
  | failed (e : AsmError)
deriving DecidableEq, Repr

/-- The symbol table (R27) and the pass registers (R28). The spec's one name `slot` is a counter in pass 1 and a slot
state in pass 2: two fields here (log 15). -/
structure AsmRegs where
  symtab : List Symbol
  line : Nat
  slotCount : Nat
  slot : Slot
  word : Int
  opm : Option Text
  hasData : Bool
deriving DecidableEq, Repr

/-- Assembler reset (R28, R32, R145). -/
def AsmRegs.reset : AsmRegs :=
  { symtab := initializeSymtab, line := 0, slotCount := 0, slot := .label, word := 0, opm := none, hasData := false }

/-- What stands where the table and the pass registers stood, once they are discarded (R30, R145; log 14). -/
def AsmRegs.discarded : AsmRegs :=
  { symtab := [], line := 0, slotCount := 0, slot := .label, word := 0, opm := none, hasData := false }

/-- Every piece of state the spec gives the machine. -/
structure State where
  params : Params
  phase : Phase
  src : Option Text
  input : List Int
  mem : Memory
  pc : Nat
  acc : Int
  inPos : Nat
  out : List Event
  run : RunState
  status : Status
  asm : AsmRegs
deriving DecidableEq, Repr

/-- The ways a step has no next state. -/
inductive Fault where
  /-- Raised by `step` when `run = Halted`: "the CPU has no step" (R95). Stuck, safe. -/
  | halted
  /-- Raised by `step` after an assembly error: the CPU never starts (R129, R145). Stuck, safe. -/
  | assemblyFailed
  /-- Raised by `step` when the fetched cell holds no word, an integer outside -999 to 999. No cell can (R16, R25), and
  no run reaches such a state (log 8). Safe. -/
  | cellHoldsNoWord (w : Int)
deriving DecidableEq, Repr

/-- The ways the model declines to give a meaning. -/
inductive Refusal where
  /-- Raised by `exec` for an instruction without a meaning: none is left. Safe. -/
  | notModelled (mnemonic : String)
  /-- Raised by `step` when the parameters lie outside R9: "The spec does not model that configuration" (log 4). Safe. -/
  | unsupportedParameters
deriving DecidableEq, Repr

/-- The machine right after reset: the start of an assembly, the first reset of R145, with this hardware's parameters
(R8). The values are R32's; `SRC` is absent and `INPUT` is empty until the host supplies them (log 1, log 2), and the
CPU's registers hold already what CPU reset gives them (log 3). -/
def State.reset : State :=
  { params := Config.hardware, phase := .source, src := none, input := [], mem := [], pc := 0, acc := 0, inPos := 0,
    out := [], run := .running, status := .none, asm := AsmRegs.reset }

end Sys2Proof.Machine
end

