-- ==== Sys2Proof/Machine/Ops.lean ====
section
/-! DEFINITION. The named operations over memory and registers (00_scope.md R11; 20_memory.md R37, R38) and the one
operation that takes an execution error (60_exceptions.md R130). The hardware has no return from an error (R137), so
there is none here. -/

namespace Sys2Proof.Machine

/-- The cell at address `a`: an unlisted cell holds 0 (R29, R42). -/
def Memory.read : Memory → Nat → Int
  | [], _ => 0
  | (b, v) :: m, a => if b = a then v else Memory.read m a

/-- `mem[a] <- v`, keeping the canonical form: writing 0 removes the entry. -/
def Memory.write : Memory → Nat → Int → Memory
  | [], a, v => if v = 0 then [] else [(a, v)]
  | (b, w) :: m, a, v =>
    if a < b then (if v = 0 then (b, w) :: m else (a, v) :: (b, w) :: m)
    else if a = b then (if v = 0 then m else (a, v) :: m)
    else (b, w) :: Memory.write m a v

/-- The canonical form from address `lo` on. -/
def Memory.wfFrom : Nat → Memory → Bool
  | _, [] => true
  | lo, (a, v) :: m => decide (lo ≤ a) && decide (v ≠ 0) && Memory.wfFrom (a + 1) m

/-- The canonical form: addresses strictly rising, no entry equal to what an unlisted cell holds. -/
def Memory.wf (m : Memory) : Bool := Memory.wfFrom 0 m

/-- Every listed cell lies in `[0..N-1]` and holds a word (R25, R33). -/
def Memory.inSpace (n : Nat) (m : Memory) : Bool :=
  m.all fun c => decide (c.1 < n) && decide (InWord c.2)

/-- The image: the words at addresses 0 to N-1 (R76). -/
def Memory.cells (n : Nat) (m : Memory) : List Int := (List.range n).map (Memory.read m)

/-- `pc <- target`. -/
def State.setPc (s : State) (target : Nat) : State := { s with pc := target }

/-- `pc <- p + 1`, step 3 of R96. -/
def State.incPc (s : State) : State := s.setPc (s.pc + 1)

/-- `acc <- v`. -/
def State.setAcc (s : State) (v : Int) : State := { s with acc := v }

/-- The memory write of `MemWrite`, once the address is known to be in range. -/
def State.setCell (s : State) (a : Nat) (v : Int) : State := { s with mem := Memory.write s.mem a v }

/-- `in_pos <- in_pos + 1`. -/
def State.advanceInput (s : State) : State := { s with inPos := s.inPos + 1 }

/-- `emit(ev)`: append to the output sink (R11, R118). -/
def State.emit (s : State) (ev : Event) : State := { s with out := s.out ++ [ev] }

/-- `run <- Halted; status <- st`. -/
def State.halt (s : State) (st : Status) : State := { s with run := .halted, status := st }

/-- `E(info)`, as a `raise` names it (R11, R127). -/
structure Raise where
  kind : ExecErrorKind
  info : Int
deriving DecidableEq, Repr

/-- Taking an execution error `E(info)` at fetch address `p` (R130): the run halts and the status records it; nothing
else is written. -/
def State.takeError (s : State) (p : Nat) (r : Raise) : State := s.halt (.error r.kind p (some r.info))

/-- `MemRead(a, 1)` (R37). -/
def memRead (s : State) (a : Int) : Except Raise Int :=
  if a < 0 ∨ (s.params.n : Int) ≤ a then .error { kind := .addressOutOfRange, info := a }
  else .ok (Memory.read s.mem a.toNat)

/-- `MemWrite(a, 1, v)` (R38). -/
def memWrite (s : State) (a : Int) (v : Int) : Except Raise State :=
  if a < 0 ∨ (s.params.n : Int) ≤ a then .error { kind := .addressOutOfRange, info := a }
  else .ok (s.setCell a.toNat v)

/-- Steps 3 and 4 of R96 around one instruction's own effect: `pc <- p + 1`, then the effect; an error it raises is
taken with `p` as its address, and the pc increment stands (R96, R130). -/
def execute (s : State) (effect : State → Except Raise State) : Host.Outcome State Fault Refusal :=
  match effect s.incPc with
  | .ok t => .next t
  | .error r => .next (s.incPc.takeError s.pc r)

end Sys2Proof.Machine
end

