-- ==== Sys2Proof/Machine/Assembler.lean ====
section
/-! DEFINITION. The two-pass assembler (41_assembler.md R76 to R90). Each stage is a function; `assemble` composes them
(R76), and the machine's steps in the assembly phases run them in the order of R145 and R147. -/

namespace Sys2Proof.Machine

/-- `raise E(line)` inside a pass (R76). -/
def raiseAt (kind : AsmErrorKind) (line : Nat) : AsmError := { kind := kind, info := some line }

/-- Stages 1 to 3 of R76: the source is present, holds no CR, VT or FF, and has at most `N` lines (R66, R68, R77). -/
def prepare (P : Params) : Option Text → Except AsmError (List Text)
  | none => .error { kind := .sourceNotFound, info := none }
  | some cs =>
    match firstUnsupported 0 (lines cs) with
    | some l => .error (raiseAt .unsupportedWhitespace l)
    | none =>
      if P.n < (lines cs).length then .error { kind := .memoryOverflow, info := some P.n } else .ok (lines cs)

/-- "Advance slot after processing every token" (R79). -/
def advanceSlot (r : AsmRegs) : AsmRegs := { r with slotCount := r.slotCount + 1 }

/-- Pass 1 on one token (R79). -/
def pass1Token (P : Params) (r : AsmRegs) (t : Text) : Except AsmError AsmRegs :=
  match lookup t r.symtab with
  | some e =>
    match e.kind with
    | .mnemonic => .ok (advanceSlot { r with slotCount := 1 })
    | .label => .ok (advanceSlot r)
  | none =>
    if r.slotCount = 0 then
      match insertSymbol P.symtabCap .label t r.line r.symtab with
      | none => .error (raiseAt .symbolTableFull r.line)
      | some tab => .ok (advanceSlot { r with symtab := tab })
    else .ok (advanceSlot r)

/-- Pass 1 on a line's tokens, in order. -/
def pass1Tokens (P : Params) (r : AsmRegs) : List Text → Except AsmError AsmRegs
  | [] => .ok r
  | t :: ts => do
    let r ← pass1Token P r t
    pass1Tokens P r ts

/-- Pass 1 on the lines from number `k` on: the counter starts each line at 0 (R70, R79). -/
def pass1Lines (P : Params) (k : Nat) (r : AsmRegs) : List Text → Except AsmError AsmRegs
  | [] => .ok r
  | l :: ls => do
    let r ← pass1Tokens P { r with line := k, slotCount := 0 } (tokens l)
    pass1Lines P (k + 1) r ls

/-- Pass 1 (R78, R79): `line` starts at 0 (R28). -/
def pass1 (P : Params) (ls : List Text) (r : AsmRegs) : Except AsmError AsmRegs :=
  pass1Lines P 0 { r with line := 0 } ls

/-- `resolve(t)`: the table first, then the integer literal (R86). -/
def resolve (r : AsmRegs) (t : Text) : Except AsmError Int :=
  match lookup t r.symtab with
  | some e => .ok e.value
  | none =>
    match intLiteral t with
    | some v => .ok v
    | none => .error (raiseAt .undefinedSymbol r.line)

/-- The Op slot's handler (R83). -/
def opSlot (r : AsmRegs) (t : Text) : Except AsmError AsmRegs :=
  match lookup t r.symtab with
  | some e =>
    match e.kind with
    | .mnemonic => .ok { r with word := r.word + e.value, opm := some t, slot := .data }
    | .label => .error (raiseAt .expectedMnemonic r.line)
  | none => .error (raiseAt .expectedMnemonic r.line)

/-- The Label slot's handler (R82): a label is skipped, a mnemonic is handled as the Op. An unresolved token cannot
reach this slot (R80); the pseudocode of R81 then does nothing (log 11). -/
def labelSlot (r : AsmRegs) (t : Text) : Except AsmError AsmRegs :=
  match lookup t r.symtab with
  | some e =>
    match e.kind with
    | .label => .ok { r with slot := .op }
    | .mnemonic => opSlot { r with slot := .op } t
  | none => .ok r

/-- Whether the line's mnemonic ignores its operand: `opm in {HLT, INP, OUT, PRT}` (R84). -/
def ignoresOperand (r : AsmRegs) : Bool :=
  match r.opm with
  | some m => operandIgnored.contains m
  | none => false

/-- The Data slot's handler (R84): the operand is resolved even where it is ignored. -/
def dataSlot (r : AsmRegs) (t : Text) : Except AsmError AsmRegs := do
  let v ← resolve r t
  pure { r with word := if ignoresOperand r then r.word else r.word + v, hasData := true, slot := .extra }

/-- Pass 2 on one token, by the current slot (R81 to R85). -/
def pass2Token (r : AsmRegs) (t : Text) : Except AsmError AsmRegs :=
  match r.slot with
  | .label => labelSlot r t
  | .op => opSlot r t
  | .data => dataSlot r t
  | .extra => .error (raiseAt .tooManyTokens r.line)

/-- Pass 2 on a line's tokens, in order. -/
def pass2Tokens (r : AsmRegs) : List Text → Except AsmError AsmRegs
  | [] => .ok r
  | t :: ts => do
    let r ← pass2Token r t
    pass2Tokens r ts

/-- Whether the line's mnemonic requires an operand that the line lacks (R63, R88, D19). -/
def lacksOperand (r : AsmRegs) : Bool :=
  match r.opm with
  | some m => operandRequired.contains m && !r.hasData
  | none => false

/-- The checks of `line_end(line)`, and the word they let through (R88). -/
def lineWord (r : AsmRegs) : Except AsmError Int :=
  if lacksOperand r then .error (raiseAt .missingOperand r.line)
  else if InWord r.word then .ok r.word
  else .error (raiseAt .wordOutOfRange r.line)

/-- The pass registers at the start of line `k` of pass 2 (R28, R81). -/
def startLine (r : AsmRegs) (k : Nat) : AsmRegs :=
  { r with line := k, slot := .label, word := 0, opm := none, hasData := false }

/-- Pass 2 on the lines from number `k` on; each line's word is written once, at the line's end (R81, R88, R89). -/
def pass2Lines (k : Nat) (r : AsmRegs) (m : Memory) : List Text → Except AsmError (AsmRegs × Memory)
  | [] => .ok (r, m)
  | l :: ls => do
    let r ← pass2Tokens (startLine r k) (tokens l)
    let w ← lineWord r
    pass2Lines (k + 1) r (Memory.write m k w) ls

/-- Pass 2 (R81): `line` starts at 0 (R28). -/
def pass2 (ls : List Text) (r : AsmRegs) (m : Memory) : Except AsmError (AsmRegs × Memory) :=
  pass2Lines 0 { r with line := 0 } m ls

/-- The assembler as a function (R76): from `SRC` to `Ok(image)`, the image as the memory that holds it, or `Err`. -/
def assemble (P : Params) (src : Option Text) : Except AsmError Memory := do
  let ls ← prepare P src
  let r ← pass1 P ls AsmRegs.reset
  let res ← pass2 ls r []
  pure res.2

/-- Recording an assembly error: assembly ends, and nothing is handed over (R129; log 14). -/
def State.failAssembly (s : State) (e : AsmError) : State := { s with phase := .failed e }

/-- The lines both passes walk (R78). -/
def State.sourceLines (s : State) : List Text :=
  match s.src with
  | some cs => lines cs
  | none => []

/-- Stages 1 to 4 of R76, with assembler reset (R145): memory zero, the table initialised. -/
def prepareStep (s : State) : State :=
  match prepare s.params s.src with
  | .ok _ => { s with phase := .pass1, mem := [], asm := AsmRegs.reset }
  | .error e => s.failAssembly e

/-- Stage 5 of R76. -/
def pass1Step (s : State) : State :=
  match pass1 s.params s.sourceLines s.asm with
  | .ok r => { s with phase := .pass2, asm := r }
  | .error e => s.failAssembly e

/-- Stages 6 and 7 of R76. -/
def pass2Step (s : State) : State :=
  match pass2 s.sourceLines s.asm s.mem with
  | .ok res => { s with phase := .assembled, asm := res.1, mem := res.2 }
  | .error e => s.failAssembly e

/-- CPU reset (R32, R145): the image stays, the table and the pass registers are discarded (R30). -/
def cpuReset (s : State) : State :=
  { s with phase := .execution, pc := 0, acc := 0, inPos := 0, out := [], run := .running, status := .none,
           asm := AsmRegs.discarded }

end Sys2Proof.Machine
end

