-- ==== Sys2Proof/Machine/Flags.lean ====
section
/-! DEFINITION. The hardware has no flags (10_state.md R19): the branches test the accumulator, and arithmetic checks
its exact result (43_arithmetic.md R104). These are those tests. -/

namespace Sys2Proof.Machine

/-- BRZ's condition: the accumulator is exactly 0 (R115). -/
def accIsZero (s : State) : Bool := decide (s.acc = 0)

/-- BRP's condition: the accumulator is strictly positive (R116). -/
def accIsPositive (s : State) : Bool := decide (0 < s.acc)

/-- The range check of an exact arithmetic result: no wrap, no saturation (R104, D5). -/
def narrowResult (r : Int) : Except Raise Int :=
  if InWord r then .ok r else .error { kind := .accumulatorOverflow, info := r }

/-- The range check of an input value (R122, D11). -/
def narrowInput (v : Int) : Except Raise Int :=
  if InWord v then .ok v else .error { kind := .inputOutOfRange, info := v }

end Sys2Proof.Machine
end

