-- ==== Sys2Proof/Machine/Operands.lean ====
section
/-! DEFINITION. The operand forms: direct and one-level indirect addressing (44_load_store.md R107) and absolute branch
targets (45_control.md R113). The operand is used as it is (30_encoding.md R55). -/

namespace Sys2Proof.Machine

/-- The effective address of the direct form: the operand (R107). -/
def directAddress (a : Nat) : Int := a

/-- The word a direct operand names (ADD, SUB, LDA). -/
def readDirect (s : State) (a : Nat) : Except Raise Int := memRead s (directAddress a)

/-- The word a one-level indirect operand names (LDD, R109): the pointer is a whole word, and exactly two reads take
place. -/
def readIndirect (s : State) (a : Nat) : Except Raise Int := do
  let q ← memRead s (directAddress a)
  memRead s q

/-- The write of a direct operand (STA, R108). -/
def writeDirect (s : State) (a : Nat) (v : Int) : Except Raise State := memWrite s (directAddress a) v

/-- The target of a branch: absolute, the operand (R113). -/
def branchTarget (a : Nat) : Nat := a

end Sys2Proof.Machine
end

