-- ==== Sys2Proof/Machine/Arithmetic.lean ====
section
/-! DEFINITION. ADD and SUB (43_arithmetic.md). -/

namespace Sys2Proof.Machine

/-- ADD (R105). -/
def execAdd (a : Nat) (s : State) : Host.Outcome State Fault Refusal :=
  execute s fun t => do
    let v ← readDirect t a
    let r ← narrowResult (t.acc + v)
    pure (t.setAcc r)

/-- SUB (R106). -/
def execSub (a : Nat) (s : State) : Host.Outcome State Fault Refusal :=
  execute s fun t => do
    let v ← readDirect t a
    let r ← narrowResult (t.acc - v)
    pure (t.setAcc r)

end Sys2Proof.Machine
end

