-- ==== Sys2Proof/Machine/Control.lean ====
section
/-! DEFINITION. HLT, BRA, BRZ and BRP (45_control.md). -/

namespace Sys2Proof.Machine

/-- HLT (R112): the operand digits are ignored. -/
def execHlt (_a : Nat) (s : State) : Host.Outcome State Fault Refusal :=
  execute s fun t => pure (t.halt .ok)

/-- BRA (R114). -/
def execBra (a : Nat) (s : State) : Host.Outcome State Fault Refusal :=
  execute s fun t => pure (t.setPc (branchTarget a))

/-- BRZ (R115). -/
def execBrz (a : Nat) (s : State) : Host.Outcome State Fault Refusal :=
  execute s fun t => pure (if accIsZero t then t.setPc (branchTarget a) else t)

/-- BRP (R116): strictly positive. -/
def execBrp (a : Nat) (s : State) : Host.Outcome State Fault Refusal :=
  execute s fun t => pure (if accIsPositive t then t.setPc (branchTarget a) else t)

end Sys2Proof.Machine
end

