-- ==== Sys2Proof/Machine/InputOutput.lean ====
section
/-! DEFINITION. INP, OUT and PRT (46_io.md). -/

namespace Sys2Proof.Machine

/-- INP (R120 to R122): the next value of `INPUT`, or 0 without moving the cursor once the input is exhausted. -/
def execInp (s : State) : Host.Outcome State Fault Refusal :=
  execute s fun t =>
    match t.input[t.inPos]? with
    | some v => do
      let w ← narrowInput v
      pure (t.setAcc w).advanceInput
    | none => pure (t.setAcc 0)

/-- OUT (R123). -/
def execOut (s : State) : Host.Outcome State Fault Refusal :=
  execute s fun t => pure (t.emit (.num t.acc))

/-- PRT (R124). -/
def execPrt (s : State) : Host.Outcome State Fault Refusal :=
  execute s fun t => pure (t.emit (.chr t.acc))

end Sys2Proof.Machine
end

