-- ==== Sys2Proof/Machine/LoadStore.lean ====
section
/-! DEFINITION. STA, LDD and LDA (44_load_store.md). -/

namespace Sys2Proof.Machine

/-- STA (R108). -/
def execSta (a : Nat) (s : State) : Host.Outcome State Fault Refusal :=
  execute s fun t => writeDirect t a t.acc

/-- LDD (R109). -/
def execLdd (a : Nat) (s : State) : Host.Outcome State Fault Refusal :=
  execute s fun t => do
    let v ← readIndirect t a
    pure (t.setAcc v)

/-- LDA (R110). -/
def execLda (a : Nat) (s : State) : Host.Outcome State Fault Refusal :=
  execute s fun t => do
    let v ← readDirect t a
    pure (t.setAcc v)

end Sys2Proof.Machine
end

