-- ==== Sys2Proof/Machine/Unassigned.lean ====
section
/-! DEFINITION. The unassigned words (47_unassigned.md). -/

namespace Sys2Proof.Machine

/-- The word 900 + sel (R126): a no-op, or `InvalidOpcode(w)` when `INVALID_OPCODE_FATAL` is true. -/
def execUnassigned (sel : Nat) (s : State) : Host.Outcome State Fault Refusal :=
  execute s fun t =>
    if t.params.invalidOpcodeFatal then .error { kind := .invalidOpcode, info := encode (.unassigned sel) }
    else pure t

end Sys2Proof.Machine
end

