-- ==== Sys2Proof/Machine/Dispatch.lean ====
section
/-! DEFINITION. The dispatch of 42_cpu_cycle.md R100: one arm per instruction. `exec i s` is steps 3 and 4 of R96 for a
state whose pc is still the fetch address (log 10). -/

namespace Sys2Proof.Machine

def exec (i : Instr) (s : State) : Host.Outcome State Fault Refusal :=
  match i with
  | .hlt a => Sys2Proof.Machine.execHlt a s
  | .add a => Sys2Proof.Machine.execAdd a s
  | .sub a => Sys2Proof.Machine.execSub a s
  | .sta a => Sys2Proof.Machine.execSta a s
  | .ldd a => Sys2Proof.Machine.execLdd a s
  | .lda a => Sys2Proof.Machine.execLda a s
  | .bra a => Sys2Proof.Machine.execBra a s
  | .brz a => Sys2Proof.Machine.execBrz a s
  | .brp a => Sys2Proof.Machine.execBrp a s
  | .inp => Sys2Proof.Machine.execInp s
  | .out => Sys2Proof.Machine.execOut s
  | .prt => Sys2Proof.Machine.execPrt s
  | .unassigned sel => Sys2Proof.Machine.execUnassigned sel s

end Sys2Proof.Machine
end

