-- ==== Sys2Proof/Machine/Fetch.lean ====
section
/-! DEFINITION. Fetch and decode: steps 1 and 2 of 42_cpu_cycle.md R96, before the pc increment. -/

namespace Sys2Proof.Machine

/-- What steps 1 and 2 of R96 give. -/
inductive Fetched where
  | instr (i : Instr)
  | raises (r : Raise)
  | noWord (w : Int)
deriving DecidableEq, Repr

/-- Step 2 of R96 on the fetched word (R51, R52, R98). -/
def fetchedOf (w : Int) : Fetched :=
  match decode w with
  | .instr i => .instr i
  | .invalidWord v => .raises { kind := .invalidInstructionWord, info := v }
  | .noWord v => .noWord v

/-- Steps 1 and 2 of R96: the pc bound is checked here, at the fetch (R97, D8). -/
def fetch (s : State) : Fetched :=
  if s.params.n ≤ s.pc then .raises { kind := .memoryOverflow, info := s.pc }
  else
    match memRead s s.pc with
    | .error r => .raises r
    | .ok w => fetchedOf w

end Sys2Proof.Machine
end

