-- ==== Sys2Proof/Machine/Step.lean ====
section
/-! DEFINITION. One step of the machine: the assembly's stages, CPU reset (70_reset_and_hazards.md R145, R147), then the
CPU's fetch-decode-execute step (42_cpu_cycle.md R94 to R98). -/

namespace Sys2Proof.Machine

/-- The CPU's step (R96): an error raised before the pc increment leaves `pc = p` (R96, R130). -/
def cpuStep (s : State) : Host.Outcome State Fault Refusal :=
  match fetch s with
  | .instr i => exec i s
  | .raises r => .next (s.takeError s.pc r)
  | .noWord w => .fault (.cellHoldsNoWord w)

/-- The CPU steps only while `run = Running` (R94, R95). -/
def executionStep (s : State) : Host.Outcome State Fault Refusal :=
  match s.run with
  | .running => cpuStep s
  | .halted => .fault .halted

/-- One step of the machine, in the order of R145 and R147. -/
def step (s : State) : Host.Outcome State Fault Refusal :=
  if ¬ s.params.ok then .refused .unsupportedParameters
  else
    match s.phase with
    | .source => .next (prepareStep s)
    | .pass1 => .next (pass1Step s)
    | .pass2 => .next (pass2Step s)
    | .assembled => .next (cpuReset s)
    | .execution => executionStep s
    | .failed _ => .fault .assemblyFailed

/-- `s` with the word `w` stored where the next step fetches, and all that the fetch takes: the machine stands in the
CPU's run, the run goes on, and the pc is a cell's address (its own, or the reset vector 0 where it lay past the end)
(log 1, log 6). -/
def State.withFetchWord (s : State) (_nbits w : Nat) : State :=
  let p := if s.pc < s.params.n then s.pc else 0
  { s with phase := .execution, run := .running, status := .none, pc := p, mem := Memory.write s.mem p (w : Int) }

end Sys2Proof.Machine
end

