-- ==== Sys2Proof/Machine/HostView.lean ====
section
/-! DEFINITION. What the host supplies and reads back (46_io.md R119, R125; 41_assembler.md R93; 60_exceptions.md R127,
R132). None of it is a step of the machine. -/

namespace Sys2Proof.Machine

/-- The decimal digits of a natural number, least significant first, with `fuel` digits at most. -/
def digitsRev : Nat → Nat → Text
  | 0, _ => []
  | fuel + 1, n =>
    if n < 10 then [Char.ofNat (48 + n)] else Char.ofNat (48 + n % 10) :: digitsRev fuel (n / 10)

/-- The decimal digits of a natural number, no leading zeros, `0` for zero (R119). -/
def decimalDigits (n : Nat) : Text := (digitsRev (n + 1) n).reverse

/-- The decimal text of an integer: `-` if negative, then the digits of its absolute value (R119). -/
def decimalText (v : Int) : Text := if v < 0 then '-' :: decimalDigits v.natAbs else decimalDigits v.natAbs

/-- The text of one event (R119): the character with that code point for `v ≥ 0`, a free value for `v < 0` (log 12). -/
def renderEvent : Event → Text
  | .num v => decimalText v
  | .chr v => if v < 0 then Config.negativeChrText v else [Char.ofNat v.toNat]

/-- `render(out)`: the events' texts joined, with nothing between them (R119). -/
def render : List Event → Text
  | [] => []
  | ev :: evs => renderEvent ev ++ render evs

/-- The bytes of one character in the output stream: the ASCII code below 128, a free value from 128 on (R119,
log 12). -/
def charBytes (c : Char) : List (BitVec 8) :=
  if c.toNat < 128 then [BitVec.ofNat 8 c.toNat] else Config.wideCharBytes c

/-- The output as the byte stream the host sees (R119). -/
def renderBytes (out : List Event) : List (BitVec 8) := (render out).flatMap charBytes

/-- The codes of the execution errors (R127). -/
def ExecErrorKind.code : ExecErrorKind → Nat
  | .memoryOverflow => 11
  | .invalidInstructionWord => 12
  | .addressOutOfRange => 13
  | .accumulatorOverflow => 14
  | .inputOutOfRange => 15
  | .invalidOpcode => 16

/-- The codes of the assembly errors (R127). -/
def AsmErrorKind.code : AsmErrorKind → Nat
  | .sourceNotFound => 1
  | .unsupportedWhitespace => 2
  | .memoryOverflow => 3
  | .symbolTableFull => 4
  | .tooManyTokens => 5
  | .expectedMnemonic => 6
  | .undefinedSymbol => 7
  | .missingOperand => 8
  | .wordOutOfRange => 9

/-- The completion status of a run (R21, R132). -/
def Status.code : Status → Option Nat
  | Status.none => Option.none
  | .ok => some 0
  | .error k _ _ => some k.code

/-- The completion status the host receives (R132): none while the machine has not ended. -/
def completionStatus (s : State) : Option Nat :=
  match s.phase with
  | .failed e => some e.kind.code
  | .execution =>
    match s.run with
    | .halted => s.status.code
    | .running => none
  | .source => none
  | .pass1 => none
  | .pass2 => none
  | .assembled => none

/-- What the host reads after `run = Halted`, and not before: during the run it "may not read" anything, and before it
there is no run (R125, rows 3 and 4). -/
def afterHalt {α : Type} (s : State) (x : α) : Option α :=
  match s.phase with
  | .execution =>
    match s.run with
    | .halted => some x
    | .running => none
  | .source => none
  | .pass1 => none
  | .pass2 => none
  | .assembled => none
  | .failed _ => none

/-- The host's read of `out` (R125). -/
def hostOut (s : State) : Option (List Event) := afterHalt s s.out

/-- The host's read of `status` (R125). -/
def hostStatus (s : State) : Option Status := afterHalt s s.status

/-- The text the host gets back: `render(out)` after the run, nothing until it ends (R118, R125). -/
def hostText (s : State) : Option Text := (hostOut s).map render

/-- The same text as the byte stream of R119. -/
def hostBytes (s : State) : Option (List (BitVec 8)) := (hostOut s).map renderBytes

/-- What assembly hands back to the host (R76, R125): `Ok(image)` once it has succeeded, `Err` once it has failed. -/
def assemblyResult (s : State) : Option (Except AsmError (List Int)) :=
  match s.phase with
  | .failed e => some (.error e)
  | .assembled => some (.ok (Memory.cells s.params.n s.mem))
  | .source => none
  | .pass1 => none
  | .pass2 => none
  | .execution => none

/-- The debug dump (R93, D36): the final symbol table and the whole memory, readable between assembly and execution. -/
def debugDump (s : State) : Option (List Symbol × List Int) :=
  match s.phase with
  | .assembled => some (s.asm.symtab, Memory.cells s.params.n s.mem)
  | .source => none
  | .pass1 => none
  | .pass2 => none
  | .execution => none
  | .failed _ => none

/-- A new start: every piece of state fresh, with the launch parameters (R95, R137, R145, D32). -/
def State.launch (P : Params) (src : Option Text) (input : List Int) : State :=
  { State.reset with params := P, src := src, input := input }

/-- Before assembly the host supplies `SRC`, or nothing (R125). -/
def supplySource (src : Option Text) (s : State) : Option State :=
  match s.phase with
  | .source => some { s with src := src }
  | .pass1 => none
  | .pass2 => none
  | .assembled => none
  | .execution => none
  | .failed _ => none

/-- Between assembly and run the host supplies `INPUT` (R125, R146). -/
def supplyInput (input : List Int) (s : State) : Option State :=
  match s.phase with
  | .assembled => some { s with input := input }
  | .source => none
  | .pass1 => none
  | .pass2 => none
  | .execution => none
  | .failed _ => none

end Sys2Proof.Machine
end

