-- ==== Sys2Proof/Safety.lean ====
section
/-! DEFINITION. What a legal state is: the ranges and shapes the spec gives every piece of state, which every step
keeps. -/

namespace Sys2Proof.Machine

/-- The event carries a word (R118). -/
abbrev Event.inWord : Event → Prop
  | .num v => InWord v
  | .chr v => InWord v

/-- The memory keeps its canonical form, and its cells are `[0..N-1]`, each holding a word (R25, R33). -/
structure MemoryLegal (s : State) : Prop where
  canonical : Memory.wf s.mem = true
  inSpace : Memory.inSpace s.params.n s.mem = true

/-- The CPU's registers lie in their ranges (R16, R18, R22, R24, R118). -/
structure RegistersLegal (s : State) : Prop where
  pc : s.pc ≤ 100
  acc : InWord s.acc
  inPos : s.inPos ≤ s.input.length
  out : ∀ ev ∈ s.out, ev.inWord

/-- `status` is `None` exactly while `run = Running` (R20, R21). -/
def StatusLegal (s : State) : Prop := s.status = .none ↔ s.run = .running

/-- The CPU takes no step before CPU reset, so its run is still to come (R145, R147). -/
def RunLegal (s : State) : Prop := s.phase ≠ .execution → s.run = .running

/-- The symbol table (R27): at most `SYMTAB_CAP` entries, keys unique; while an assembly stands, the mnemonics are
entries of their own and every label is bound to an address (R72, R77, R80). -/
structure SymtabLegal (s : State) : Prop where
  capacity : s.asm.symtab.length ≤ s.params.symtabCap
  unique : (s.asm.symtab.map Symbol.key).Nodup
  labels : ∀ e ∈ s.asm.symtab, e.kind = .label → 0 ≤ e.value ∧ e.value < (s.params.n : Int)
  mnemonics : (s.phase = .source ∨ s.phase = .pass1 ∨ s.phase = .pass2 ∨ s.phase = .assembled) →
    initializeSymtab <+: s.asm.symtab

/-- The source passed the checks before pass 1: it has at most `N` lines (R77). -/
def SourceLegal (s : State) : Prop :=
  (s.phase = .pass1 ∨ s.phase = .pass2) → s.sourceLines.length ≤ s.params.n

/-- A legal state. -/
structure Inv (s : State) : Prop where
  params : s.params.ok
  memory : MemoryLegal s
  registers : RegistersLegal s
  status : StatusLegal s
  run : RunLegal s
  symtab : SymtabLegal s
  source : SourceLegal s

/-- The CPU is running and stands at a cell (R94, R96): the premise under which a step executes an instruction. -/
structure Running (s : State) : Prop where
  params : s.params.ok
  phase : s.phase = .execution
  run : s.run = .running
  pc : s.pc < s.params.n

end Sys2Proof.Machine
end

