-- ==== Sys2Proof/Certificates/Slice0/Obligations.lean ====
section
/-! DEFINITION. The statements for the provers. Each docstring names the rule of spec/ it formalises; where a clause is
the model's choice it names the log entry. -/

namespace Sys2Proof.Claims

open Sys2Proof.Machine

/-- The word `w` encodes `i`, decodes to it, and a CPU step at a cell that holds `w` executes `i`. -/
def RunsAs (w : Nat) (i : Instr) : Prop :=
  encode i = (w : Int) ∧ decode (w : Int) = .instr i ∧
    ∀ s : State, Running s → Memory.read s.mem s.pc = (w : Int) → step s = exec i s

/-- The state after an error raised in dispatch (R130), written out. -/
def errorState (s : State) (k : ExecErrorKind) (info : Int) : State :=
  { s with pc := s.pc + 1, run := .halted, status := .error k s.pc (some info) }

/-- The table of R16, column "writes acc". -/
def writesAcc : Instr → Bool
  | .add _ | .sub _ | .ldd _ | .lda _ | .inp => true
  | .hlt _ | .sta _ | .bra _ | .brz _ | .brp _ | .out | .prt | .unassigned _ => false

/-- The table of R16, column "reads acc". -/
def readsAcc : Instr → Bool
  | .add _ | .sub _ | .sta _ | .brz _ | .brp _ | .out | .prt => true
  | .hlt _ | .ldd _ | .lda _ | .bra _ | .inp | .unassigned _ => false

/-- Executing a list of instructions one after another. -/
def execAll : List Instr → State → Host.Outcome State Fault Refusal
  | [], s => .next s
  | i :: is, s =>
    match exec i s with
    | .next t => execAll is t
    | .fault r => .fault r
    | .refused r => .refused r

/-- The number, counting from `k`, of the first line whose first token is `name` (R80). -/
def firstDeclaring (name : Text) (k : Nat) : List Text → Option Nat
  | [] => none
  | l :: ls => if (tokens l).head? = some name then some k else firstDeclaring name (k + 1) ls

/-- What pass 2 makes of one line's tokens: the word it writes, or the error it ends with (R81 to R88). -/
def lineResult (r : AsmRegs) (k : Nat) (toks : List Text) : Except AsmError Int := do
  let r' ← pass2Tokens (startLine r k) toks
  lineWord r'

/-- The check of R88 on a line's sum. -/
def checkedWord (k : Nat) (w : Int) : Except AsmError Int :=
  if InWord w then .ok w else .error { kind := .wordOutOfRange, info := some k }

/-- The mnemonic an instruction is written with (R61); an unassigned word has none. -/
def nameOf : Instr → Option Text
  | .hlt _ => some "HLT".toList
  | .add _ => some "ADD".toList
  | .sub _ => some "SUB".toList
  | .sta _ => some "STA".toList
  | .ldd _ => some "LDD".toList
  | .lda _ => some "LDA".toList
  | .bra _ => some "BRA".toList
  | .brz _ => some "BRZ".toList
  | .brp _ => some "BRP".toList
  | .inp => some "INP".toList
  | .out => some "OUT".toList
  | .prt => some "PRT".toList
  | .unassigned _ => none

/-- The source line of a mnemonic and an operand (R60). -/
def sourceLine (name operand : Text) : Text := name ++ ' ' :: operand

/-- CR, VT or FF, by code point (R68). -/
def RefusedWhitespace (c : Char) : Prop := c.toNat = 13 ∨ c.toNat = 11 ∨ c.toNat = 12

/-- A character of a token: neither space nor tab (R69). -/
def TokenChar (c : Char) : Prop := c.toNat ≠ 32 ∧ c.toNat ≠ 9

/-- A decimal digit, by code point (R87). -/
def DigitChar (c : Char) : Prop := 48 ≤ c.toNat ∧ c.toNat ≤ 57

/-- The natural number a run of digits spells (R87). -/
def spelled (ds : Text) : Nat := ds.foldl (fun v c => v * 10 + (c.toNat - 48)) 0

/-- The steps R147 allows from one phase to the next. -/
def PhaseFollows : Phase → Phase → Prop
  | .source, .pass1 => True
  | .pass1, .pass2 => True
  | .pass2, .assembled => True
  | .assembled, .execution => True
  | .execution, .execution => True
  | .source, .failed _ => True
  | .pass1, .failed _ => True
  | .pass2, .failed _ => True
  | _, _ => False

end Sys2Proof.Claims

open Sys2Proof Sys2Proof.Machine Sys2Proof.Claims

/-! The instructions, one by one: encoding, completion, every error, the whole next state. -/

/-- R112. Every word from 0 to 99 halts; HLT is the only way to the status Ok. -/
def Obligations.HaltStopsTheRun : Prop :=
  (∀ a, a ≤ 99 → RunsAs a (.hlt a)) ∧
  (∀ (a : Nat) (s : State), exec (.hlt a) s = .next { s with pc := s.pc + 1, run := .halted, status := .ok }) ∧
  (∀ (i : Instr) (s t : State), exec i s = .next t → t.status = .ok → s.status = .ok ∨ ∃ a, i = .hlt a)

/-- R105. -/
def Obligations.AddGivesExactSumOrError : Prop :=
  (∀ a, a ≤ 99 → RunsAs (100 + a) (.add a)) ∧
  ∀ (a : Nat) (s : State),
    (a < s.params.n → InWord (s.acc + Memory.read s.mem a) →
      exec (.add a) s = .next { s with pc := s.pc + 1, acc := s.acc + Memory.read s.mem a }) ∧
    (a < s.params.n → ¬ InWord (s.acc + Memory.read s.mem a) →
      exec (.add a) s = .next (errorState s .accumulatorOverflow (s.acc + Memory.read s.mem a))) ∧
    (s.params.n ≤ a → exec (.add a) s = .next (errorState s .addressOutOfRange a))

/-- R106. -/
def Obligations.SubGivesExactDifferenceOrError : Prop :=
  (∀ a, a ≤ 99 → RunsAs (200 + a) (.sub a)) ∧
  ∀ (a : Nat) (s : State),
    (a < s.params.n → InWord (s.acc - Memory.read s.mem a) →
      exec (.sub a) s = .next { s with pc := s.pc + 1, acc := s.acc - Memory.read s.mem a }) ∧
    (a < s.params.n → ¬ InWord (s.acc - Memory.read s.mem a) →
      exec (.sub a) s = .next (errorState s .accumulatorOverflow (s.acc - Memory.read s.mem a))) ∧
    (s.params.n ≤ a → exec (.sub a) s = .next (errorState s .addressOutOfRange a))

/-- R108. The cell at the operand takes the accumulator; every other cell reads as before. -/
def Obligations.StaStoresAccumulatorAtOperand : Prop :=
  (∀ a, a ≤ 99 → RunsAs (300 + a) (.sta a)) ∧
  ∀ (a : Nat) (s : State),
    (a < s.params.n → ∃ m : Memory,
      exec (.sta a) s = .next { s with pc := s.pc + 1, mem := m } ∧
      (Memory.wf s.mem = true → Memory.wf m = true ∧ Memory.read m a = s.acc) ∧
      ∀ b : Nat, (b : Int) ≠ directAddress a → Memory.read m b = Memory.read s.mem b) ∧
    (s.params.n ≤ a → exec (.sta a) s = .next (errorState s .addressOutOfRange a))

/-- R109. Two reads, the pointer whole. -/
def Obligations.LddLoadsThroughWholePointer : Prop :=
  (∀ a, a ≤ 99 → RunsAs (400 + a) (.ldd a)) ∧
  ∀ (a : Nat) (s : State),
    (∀ q : Nat, a < s.params.n → Memory.read s.mem a = (q : Int) → q < s.params.n →
      exec (.ldd a) s = .next { s with pc := s.pc + 1, acc := Memory.read s.mem q }) ∧
    (a < s.params.n → (Memory.read s.mem a < 0 ∨ (s.params.n : Int) ≤ Memory.read s.mem a) →
      exec (.ldd a) s = .next (errorState s .addressOutOfRange (Memory.read s.mem a))) ∧
    (s.params.n ≤ a → exec (.ldd a) s = .next (errorState s .addressOutOfRange a))

/-- R110. -/
def Obligations.LdaLoadsTheCell : Prop :=
  (∀ a, a ≤ 99 → RunsAs (500 + a) (.lda a)) ∧
  ∀ (a : Nat) (s : State),
    (a < s.params.n → exec (.lda a) s = .next { s with pc := s.pc + 1, acc := Memory.read s.mem a }) ∧
    (s.params.n ≤ a → exec (.lda a) s = .next (errorState s .addressOutOfRange a))

/-- R114. -/
def Obligations.BraGoesToOperand : Prop :=
  (∀ a, a ≤ 99 → RunsAs (600 + a) (.bra a)) ∧
  ∀ (a : Nat) (s : State), exec (.bra a) s = .next { s with pc := a }

/-- R115. -/
def Obligations.BrzBranchesExactlyOnZero : Prop :=
  (∀ a, a ≤ 99 → RunsAs (700 + a) (.brz a)) ∧
  ∀ (a : Nat) (s : State),
    (s.acc = 0 → exec (.brz a) s = .next { s with pc := a }) ∧
    (s.acc ≠ 0 → exec (.brz a) s = .next { s with pc := s.pc + 1 })

/-- R116. -/
def Obligations.BrpBranchesOnlyOnStrictlyPositive : Prop :=
  (∀ a, a ≤ 99 → RunsAs (800 + a) (.brp a)) ∧
  ∀ (a : Nat) (s : State),
    (0 < s.acc → exec (.brp a) s = .next { s with pc := a }) ∧
    (s.acc ≤ 0 → exec (.brp a) s = .next { s with pc := s.pc + 1 })

/-- R120, R121, R122. -/
def Obligations.InpReadsNextValueOrZero : Prop :=
  RunsAs 901 .inp ∧
  ∀ s : State,
    (∀ v, s.input[s.inPos]? = some v → InWord v →
      exec .inp s = .next { s with pc := s.pc + 1, acc := v, inPos := s.inPos + 1 }) ∧
    (∀ v, s.input[s.inPos]? = some v → ¬ InWord v → exec .inp s = .next (errorState s .inputOutOfRange v)) ∧
    (s.input.length ≤ s.inPos → exec .inp s = .next { s with pc := s.pc + 1, acc := 0 })

/-- R123. -/
def Obligations.OutAppendsNumber : Prop :=
  RunsAs 902 .out ∧
  (∀ s : State, exec .out s = .next { s with pc := s.pc + 1, out := s.out ++ [.num s.acc] }) ∧
  render [.num 0] = ['0'] ∧ render [.num (-999)] = ['-', '9', '9', '9'] ∧ render [.num 1, .num 2] = ['1', '2']

/-- R124. -/
def Obligations.PrtAppendsCharacter : Prop :=
  RunsAs 903 .prt ∧
  (∀ s : State, exec .prt s = .next { s with pc := s.pc + 1, out := s.out ++ [.chr s.acc] }) ∧
  render [.chr 65] = ['A'] ∧ render [.chr 10] = ['\n']

/-- R126, both values of the parameter; this hardware's is false. -/
def Obligations.UnassignedWordIsNoOpUnlessFatal : Prop :=
  Config.hardware.invalidOpcodeFatal = false ∧
  ∀ sel, UnassignedSelector sel →
    RunsAs (900 + sel) (.unassigned sel) ∧
    ∀ s : State,
      (s.params.invalidOpcodeFatal = false → exec (.unassigned sel) s = .next { s with pc := s.pc + 1 }) ∧
      (s.params.invalidOpcodeFatal = true →
        exec (.unassigned sel) s = .next (errorState s .invalidOpcode (900 + sel)))

/-! What every instruction leaves unchanged. -/

/-- R38, R39. Every cell reads as before, but the one STA stores to. -/
def Obligations.OnlyStaWritesMemoryAndOnlyItsCell : Prop :=
  ∀ (i : Instr) (s t : State), exec i s = .next t →
    ((∀ a, i ≠ .sta a) → ∀ b, Memory.read t.mem b = Memory.read s.mem b) ∧
    (∀ a, i = .sta a → ∀ b : Nat, (b : Int) ≠ directAddress a → Memory.read t.mem b = Memory.read s.mem b)

/-- R16's column "writes acc", R22, R24, R23, R30: each register changes only by the instructions that write it, and no
instruction touches the launch parameters, the implementation parameters, the phase or the assembler's registers. -/
def Obligations.InstructionsChangeOnlyTheirRegisters : Prop :=
  ∀ (i : Instr) (s t : State), exec i s = .next t →
    (writesAcc i = false → t.acc = s.acc) ∧
    (i ≠ .inp → t.inPos = s.inPos) ∧
    (i ≠ .out → i ≠ .prt → t.out = s.out) ∧
    (t.run = s.run ∧ t.status = s.status ∨ t.run = .halted ∧ t.acc = s.acc ∧ t.mem = s.mem) ∧
    t.params = s.params ∧ t.phase = s.phase ∧ t.src = s.src ∧ t.input = s.input ∧ t.asm = s.asm

/-- R16's column "reads acc": what the other instructions do does not depend on the accumulator. -/
def Obligations.OtherInstructionsDoNotReadAccumulator : Prop :=
  ∀ (i : Instr) (s t : State) (x : Int), readsAcc i = false → exec i s = .next t →
    ∃ u, exec i { s with acc := x } = .next u ∧ { u with acc := t.acc } = t ∧
      (u.acc = t.acc ∨ (t.acc = s.acc ∧ u.acc = x))

/-- R18's table, and R99. -/
def Obligations.ProgramCounterFollowsTable : Prop :=
  ∀ (i : Instr) (s t : State), exec i s = .next t →
    (∀ a, i = .bra a → t.pc = a) ∧
    (∀ a, i = .brz a → t.pc = if s.acc = 0 then a else s.pc + 1) ∧
    (∀ a, i = .brp a → t.pc = if 0 < s.acc then a else s.pc + 1) ∧
    ((∀ a, i ≠ .bra a) → (∀ a, i ≠ .brz a) → (∀ a, i ≠ .brp a) → t.pc = s.pc + 1) ∧
    (i.wf = true → s.pc < 100 → t.pc ≤ 100)

/-- R24. A step of the CPU appends at most one event, no instruction reads the sink, and CPU reset empties it. That it is
empty already in `State.reset` is the model's choice (log 3). -/
def Obligations.OutputSinkIsAppendOnly : Prop :=
  (∀ s t : State, s.phase = .execution → step s = .next t → ∃ evs, t.out = s.out ++ evs ∧ evs.length ≤ 1) ∧
  (∀ (i : Instr) (s t : State) (o : List Event), exec i s = .next t →
    exec i { s with out := o ++ s.out } = .next { t with out := o ++ t.out }) ∧
  State.reset.out = [] ∧ ∀ s : State, (cpuReset s).out = []

/-- R22. That the cursor is 0 already in `State.reset` is the model's choice (log 3). -/
def Obligations.InputCursorAdvancesOncePerConsumedValue : Prop :=
  (∀ (i : Instr) (s t : State) (q : Nat), i ≠ .inp → exec i s = .next t →
    t.inPos = s.inPos ∧ exec i { s with inPos := q } = .next { t with inPos := q }) ∧
  (∀ s t : State, exec .inp s = .next t →
    (t.inPos = s.inPos + 1 ∧ s.input[s.inPos]? = some t.acc) ∨
    (t.inPos = s.inPos ∧ (s.input.length ≤ s.inPos ∨ t.run = .halted))) ∧
  (∀ s t : State, s.inPos ≤ s.input.length → exec .inp s = .next t → t.inPos ≤ t.input.length) ∧
  State.reset.inPos = 0 ∧ ∀ s : State, (cpuReset s).inPos = 0

/-- R127, R133: with this hardware's `N`, only LDD can leave the memory. -/
def Obligations.OnlyLddCanRaiseAddressOutOfRange : Prop :=
  ∀ (i : Instr) (s t : State) (p : Nat) (v : Option Int),
    i.wf = true → s.params.n = 100 → s.status = .none → exec i s = .next t →
    t.status = .error .addressOutOfRange p v → ∃ a, i = .ldd a

/-! One step of the CPU. -/

/-- R96: the step at a cell whose word decodes is the instruction's. Its increment of the pc is inside `exec`
(log 10). -/
def Obligations.StepRunsTheDecodedInstruction : Prop :=
  ∀ (s : State) (i : Instr), Running s → decode (Memory.read s.mem s.pc) = .instr i → step s = exec i s

/-- R97. The step fetches nothing: it is the same whatever memory holds. -/
def Obligations.FetchPastTheEndRaisesMemoryOverflow : Prop :=
  ∀ s : State, s.params.ok → s.phase = .execution → s.run = .running → s.params.n ≤ s.pc →
    step s = .next { s with run := .halted, status := .error .memoryOverflow s.pc (some (s.pc : Int)) }

/-- R98. -/
def Obligations.NegativeWordRaisesInvalidInstructionWord : Prop :=
  ∀ (s : State) (w : Int), Running s → Memory.read s.mem s.pc = w → -999 ≤ w → w ≤ -1 →
    step s = .next { s with run := .halted, status := .error .invalidInstructionWord s.pc (some w) }

/-- R95. A halted CPU has no step; that a missing step is the fault `halted` is the model's form of it (log 9). -/
def Obligations.HaltedCpuHasNoStep : Prop :=
  ∀ s : State, s.params.ok → s.phase = .execution → s.run = .halted →
    step s = .fault .halted ∧ ∀ t, step s ≠ .next t

/-- R130. Errors are precise: the state after one is the state before the step with only pc, run and status changed. -/
def Obligations.ErrorsArePrecise : Prop :=
  ∀ (s t : State) (k : ExecErrorKind) (p : Nat) (v : Option Int),
    s.phase = .execution → s.status = .none → step s = .next t → t.status = .error k p v →
    p = s.pc ∧ t = { s with pc := t.pc, run := .halted, status := .error k s.pc v } ∧
    ((k = .memoryOverflow ∨ k = .invalidInstructionWord) ∧ t.pc = s.pc ∨
     (k ≠ .memoryOverflow ∧ k ≠ .invalidInstructionWord) ∧ t.pc = s.pc + 1)

/-- R20, R21. That `run` and `status` hold CPU reset's values already in `State.reset` is the model's choice (log 3). -/
def Obligations.StatusIsSetOnceWhenTheRunHalts : Prop :=
  (State.reset.run = .running ∧ State.reset.status = .none) ∧
  ∀ s t : State, s.phase = .execution → StatusLegal s → step s = .next t →
    s.run = .running ∧
    ((t.run = .running ∧ t.status = .none) ∨
     (t.run = .halted ∧ t.status = .ok ∧ ∃ a, fetch s = .instr (.hlt a)) ∨
     (t.run = .halted ∧ ∃ k v, t.status = .error k s.pc (some v)))

/-- R94, R95, R129, R150. From a legal state the machine steps on unless the run has halted or the assembly failed:
there is no other stop. -/
def Obligations.MachineStopsOnlyAtItsEnds : Prop :=
  ∀ s : State, Inv s →
    ((∃ t, step s = .next t) ↔ ¬ (s.phase = .execution ∧ s.run = .halted) ∧ ∀ e, s.phase ≠ .failed e)

/-- R103, R114. A branch to itself loops for ever. -/
def Obligations.BranchToItselfLoopsForever : Prop :=
  ∀ (s : State) (k : Nat), Running s → Memory.read s.mem s.pc = 600 + (s.pc : Int) → core.run k s = .next s

/-! Encoding. -/

/-- R58 with R51 to R54: every instruction at every operand its encoding admits. -/
def Obligations.DecodeOfEncodeIsIdentity : Prop :=
  ∀ i : Instr, i.wf = true → decode (encode i) = .instr i

/-- R52. The decoder is total; every word 0 to 999 is exactly one instruction's. That an integer outside -999 to 999 is
classed apart is the model's choice (log 8). -/
def Obligations.EveryWordHasOneDecoding : Prop :=
  (∀ w : Int, 0 ≤ w → w ≤ 999 → ∃ i : Instr, i.wf = true ∧ decode w = .instr i ∧ encode i = w) ∧
  (∀ w : Int, -999 ≤ w → w ≤ -1 → decode w = .invalidWord w) ∧
  (∀ w : Int, w < -999 ∨ 999 < w → decode w = .noWord w)

/-- R54, R53, R56, R57. -/
def Obligations.OpcodeMapFollowsTheTable : Prop :=
  (∀ a : Nat, a ≤ 99 →
    decode ((0 + a : Nat) : Int) = .instr (.hlt a) ∧ decode ((100 + a : Nat) : Int) = .instr (.add a) ∧
    decode ((200 + a : Nat) : Int) = .instr (.sub a) ∧ decode ((300 + a : Nat) : Int) = .instr (.sta a) ∧
    decode ((400 + a : Nat) : Int) = .instr (.ldd a) ∧ decode ((500 + a : Nat) : Int) = .instr (.lda a) ∧
    decode ((600 + a : Nat) : Int) = .instr (.bra a) ∧ decode ((700 + a : Nat) : Int) = .instr (.brz a) ∧
    decode ((800 + a : Nat) : Int) = .instr (.brp a)) ∧
  decode 900 = .instr (.unassigned 0) ∧ decode 901 = .instr .inp ∧ decode 902 = .instr .out ∧
  decode 903 = .instr .prt ∧
  (∀ a : Nat, 4 ≤ a → a ≤ 99 → decode ((900 + a : Nat) : Int) = .instr (.unassigned a))

/-- The words of 95_test_vectors.md 1.2, R58. -/
def Obligations.WrittenOutWordsDecode : Prop :=
  decode 99 = .instr (.hlt 99) ∧ decode 100 = .instr (.add 0) ∧ decode 206 = .instr (.sub 6) ∧
  decode 399 = .instr (.sta 99) ∧ decode 403 = .instr (.ldd 3) ∧ decode 599 = .instr (.lda 99) ∧
  decode 602 = .instr (.bra 2) ∧ decode 705 = .instr (.brz 5) ∧ decode 806 = .instr (.brp 6) ∧
  decode 901 = .instr .inp ∧ decode 902 = .instr .out ∧ decode 903 = .instr .prt ∧
  decode 911 = .instr (.unassigned 11)

/-- The host's way in (log 1, log 6): the word placed by `withFetchWord` is the one the next step runs. -/
def Obligations.PlacedWordIsTheNextInstruction : Prop :=
  ∀ (s : State) (nbits w : Nat) (i : Instr), s.params.ok → Memory.wf s.mem = true →
    decodeTableWord nbits w = some i →
    step (s.withFetchWord nbits w) = exec i (s.withFetchWord nbits w)

/-! Memory across steps. -/

/-- R111, R44. A value stored is loaded back, directly and through a pointer, whatever other instructions run in
between, as long as none of them stores to the cell. -/
def Obligations.StoredValueIsLoadedBack : Prop :=
  ∀ (is : List Instr) (a b : Nat) (s t u : State), Memory.wf s.mem = true → a < s.params.n → b < s.params.n →
    exec (.sta a) s = .next t → (∀ i ∈ is, i ≠ .sta a) → execAll is t = .next u →
    (∃ x, exec (.lda a) u = .next x ∧ x.acc = s.acc ∧ x.status = u.status) ∧
    (Memory.read u.mem b = (a : Int) → ∃ x, exec (.ldd b) u = .next x ∧ x.acc = s.acc ∧ x.status = u.status)

/-- R47, R148. The word a step stores is the one the very next step fetches, if the pc stands at that cell. -/
def Obligations.StoredWordIsFetchedByTheNextStep : Prop :=
  ∀ (s : State) (i : Instr), Running s → Memory.wf s.mem = true → s.pc + 1 < s.params.n →
    Memory.read s.mem s.pc = 300 + ((s.pc + 1 : Nat) : Int) → decode s.acc = .instr i →
    ∃ t, step s = .next t ∧ t.pc = s.pc + 1 ∧ step t = exec i t

/-! Legal states. -/

/-- Every reset state, whatever its parameters, source and input, is legal; `State.reset` among them. What stands in it
beside R32's values is the model's choice (log 1, log 2, log 3). -/
def Obligations.ResetIsLegal : Prop :=
  Inv State.reset ∧ ∀ (P : Params) (src : Option Text) (input : List Int), P.ok → Inv (State.launch P src input)

/-- Every step keeps a state legal: words stay words (R16, R33), the memory canonical, the pc in its range (R18), the
cursor in the input (R22), the status tied to the run (R20, R21), the table's keys unique (R27). -/
def Obligations.EveryStepKeepsStatesLegal : Prop :=
  ∀ s t : State, Inv s → step s = .next t → Inv t

/-- R32, R72, R61, R8: the values at reset that the spec gives. That the CPU's stand already at the assembler reset is the
model's choice (log 3). -/
def Obligations.ResetHoldsTheGivenValues : Prop :=
  State.reset.params = { n := 100, symtabCap := 256, invalidOpcodeFatal := false } ∧
  (∀ a, Memory.read State.reset.mem a = 0) ∧ State.reset.pc = 0 ∧ State.reset.acc = 0 ∧ State.reset.inPos = 0 ∧
  State.reset.out = [] ∧ State.reset.run = .running ∧ State.reset.status = .none ∧
  State.reset.asm.symtab.map (fun e => (e.kind, e.key, e.value)) =
    [(.mnemonic, "HLT".toList, 0), (.mnemonic, "ADD".toList, 100), (.mnemonic, "SUB".toList, 200),
     (.mnemonic, "STA".toList, 300), (.mnemonic, "LDD".toList, 400), (.mnemonic, "LDA".toList, 500),
     (.mnemonic, "BRA".toList, 600), (.mnemonic, "BRZ".toList, 700), (.mnemonic, "BRP".toList, 800),
     (.mnemonic, "INP".toList, 901), (.mnemonic, "OUT".toList, 902), (.mnemonic, "PRT".toList, 903),
     (.mnemonic, "DAT".toList, 0)]

/-- R32, R145: CPU reset, one step of the machine by the model's choice (log 5). -/
def Obligations.CpuResetStartsTheRunOnTheImage : Prop :=
  ∀ s : State, s.params.ok → s.phase = .assembled →
    ∃ t, step s = .next t ∧ t.phase = .execution ∧ t.pc = 0 ∧ t.acc = 0 ∧ t.inPos = 0 ∧ t.out = [] ∧
      t.run = .running ∧ t.status = .none ∧ t.mem = s.mem ∧ t.input = s.input ∧ t.params = s.params

/-- R147, R49, R23: the phases follow one another in order, an assembly step leaves the CPU's registers alone, a CPU
step leaves the assembler's alone, and no step changes the launch parameters or the implementation parameters. That each
stage is one step is the model's choice (log 5). -/
def Obligations.PhasesRunInOrderAndOwnTheirState : Prop :=
  ∀ s t : State, step s = .next t →
    PhaseFollows s.phase t.phase ∧
    (t.params = s.params ∧ t.src = s.src ∧ t.input = s.input) ∧
    (s.phase ≠ .assembled → s.phase ≠ .execution → t.pc = s.pc ∧ t.acc = s.acc ∧ t.inPos = s.inPos ∧
      t.out = s.out ∧ t.run = s.run ∧ t.status = s.status) ∧
    (s.phase = .execution → t.asm = s.asm)

/-- R30, R102: memory is the only channel between assembly and execution. A run does the same whatever source and
assembler registers stand beside it. -/
def Obligations.RunDependsOnlyOnImageAndInput : Prop :=
  ∀ (k : Nat) (s : State) (src : Option Text) (r : AsmRegs), s.phase = .execution →
    (∀ t, core.run k s = .next t → core.run k { s with src := src, asm := r } = .next { t with src := src, asm := r }) ∧
    (∀ e, core.run k s = .fault e → core.run k { s with src := src, asm := r } = .fault e) ∧
    (∀ e, core.run k s = .refused e → core.run k { s with src := src, asm := r } = .refused e)

/-! The assembler. -/

/-- R76, R145, R129, R91: the machine's assembly steps compute `assemble`. From the start of an assembly, whatever the
last one left behind, four steps reach the run on the image, or the assembly's error is reached and nothing follows
it. The number of steps and the fault's name are the model's choice (log 5, log 9). -/
def Obligations.MachineStepsComputeTheAssembly : Prop :=
  ∀ s : State, s.params.ok → s.phase = .source →
    (∀ m, assemble s.params s.src = .ok m → ∃ t, core.run 4 s = .next t ∧
      t.phase = .execution ∧ t.mem = m ∧ t.pc = 0 ∧ t.acc = 0 ∧ t.inPos = 0 ∧ t.out = [] ∧ t.run = .running ∧
      t.status = .none ∧ t.input = s.input ∧ t.params = s.params) ∧
    (∀ e, assemble s.params s.src = .error e → ∃ k t, k ≤ 3 ∧ core.run k s = .next t ∧
      t.phase = .failed e ∧ completionStatus t = some e.kind.code ∧ step t = .fault .assemblyFailed)

/-- R66, R68, R77 in the order of R76 and R134: the checks before pass 1. -/
def Obligations.SourceChecksComeInOrder : Prop :=
  ∀ P : Params,
    assemble P none = .error { kind := .sourceNotFound, info := none } ∧
    (∀ (cs : Text) (k : Nat) (l : Text), (lines cs)[k]? = some l → (∃ c ∈ l, RefusedWhitespace c) →
      (∀ j l', j < k → (lines cs)[j]? = some l' → ∀ c ∈ l', ¬ RefusedWhitespace c) →
      assemble P (some cs) = .error { kind := .unsupportedWhitespace, info := some k }) ∧
    (∀ cs : Text, (∀ l ∈ lines cs, ∀ c ∈ l, ¬ RefusedWhitespace c) → P.n < (lines cs).length →
      assemble P (some cs) = .error { kind := .memoryOverflow, info := some P.n }) ∧
    (∀ cs : Text, (∀ l ∈ lines cs, ∀ c ∈ l, ¬ RefusedWhitespace c) → (lines cs).length ≤ P.n →
      prepare P (some cs) = .ok (lines cs))

/-- R67: three equations that fix the line splitting. -/
def Obligations.LinesEndAtLineFeeds : Prop :=
  lines [] = [] ∧
  (∀ l : Text, l ≠ [] → '\n' ∉ l → lines l = [l]) ∧
  (∀ l rest : Text, '\n' ∉ l → lines (l ++ '\n' :: rest) = l :: lines rest)

/-- R69: the equations that fix the tokens, and that every token is a non-empty run of non-separators. -/
def Obligations.TokensAreMaximalRuns : Prop :=
  tokens [] = [] ∧
  (∀ t : Text, t ≠ [] → (∀ c ∈ t, TokenChar c) → tokens t = [t]) ∧
  (∀ (xs ys : Text) (c : Char), ¬ TokenChar c → tokens (xs ++ c :: ys) = tokens xs ++ tokens ys) ∧
  (∀ l t : Text, t ∈ tokens l → t ≠ [] ∧ ∀ c ∈ t, TokenChar c)

/-- R87: the literals are exactly an optional sign and one or more digits, and each has the value it spells; every
integer's decimal text is one. -/
def Obligations.IntegerLiteralsHaveTheirExactValue : Prop :=
  (∀ (t : Text) (v : Int), intLiteral t = some v ↔
    ∃ ds : Text, ds ≠ [] ∧ (∀ c ∈ ds, DigitChar c) ∧
      ((t = ds ∨ t = '+' :: ds) ∧ v = (spelled ds : Int) ∨ t = '-' :: ds ∧ v = -(spelled ds : Int))) ∧
  ∀ v : Int, intLiteral (decimalText v) = some v

/-- From R79, R80, R75: what a lookup finds after pass 1. A mnemonic's name is always the mnemonic; any other name is bound to
the first line it opens, or to nothing. -/
def Obligations.PassOneBindsEachLabelToItsFirstLine : Prop :=
  ∀ (P : Params) (ls : List Text) (r : AsmRegs), pass1 P ls AsmRegs.reset = .ok r → ∀ name : Text,
    (∀ e, lookup name initializeSymtab = some e → lookup name r.symtab = some e) ∧
    (lookup name initializeSymtab = none →
      lookup name r.symtab =
        (firstDeclaring name 0 ls).map fun k => { kind := .label, key := name, value := (k : Int) })

/-- R74: the table's capacity. -/
def Obligations.SymbolTableFullIsUnreachableWithinCapacity : Prop :=
  (∀ (P : Params) (ls : List Text), 13 + ls.length ≤ P.symtabCap →
    ∃ r, pass1 P ls AsmRegs.reset = .ok r ∧ r.symtab.length ≤ 13 + ls.length) ∧
  (∀ (P : Params) (r : AsmRegs) (t : Text), lookup t r.symtab = none → r.slotCount = 0 →
    r.symtab.length = P.symtabCap →
    pass1Token P r t = .error { kind := .symbolTableFull, info := some r.line }) ∧
  ∀ (src : Option Text) (k : Option Nat),
    assemble Config.hardware src ≠ .error { kind := .symbolTableFull, info := k }

/-- R82, R83: a label at the head of a line emits nothing; after it a mnemonic must come. -/
def Obligations.LeadingLabelEmitsNothing : Prop :=
  ∀ (r : AsmRegs) (k : Nat) (l : Text) (e : Symbol), lookup l r.symtab = some e → e.kind = .label →
    lineResult r k [l] = .ok 0 ∧
    (∀ (m : Text) (e' : Symbol) (rest : List Text), lookup m r.symtab = some e' → e'.kind = .mnemonic →
      lineResult r k (l :: m :: rest) = lineResult r k (m :: rest)) ∧
    (∀ (t : Text) (rest : List Text), (∀ e', lookup t r.symtab = some e' → e'.kind = .label) →
      lineResult r k (l :: t :: rest) = .error { kind := .expectedMnemonic, info := some k })

/-- R88, R63: a line without an operand, and a blank line. -/
def Obligations.LineWithoutOperandEmitsValueOrIsRefused : Prop :=
  ∀ (r : AsmRegs) (k : Nat),
    lineResult r k [] = .ok 0 ∧
    ∀ (m : Text) (e : Symbol), lookup m r.symtab = some e → e.kind = .mnemonic →
      lineResult r k [m] =
        if m ∈ operandRequired then .error { kind := .missingOperand, info := some k } else checkedWord k e.value

/-- R84, R86, R88: a line with an operand. -/
def Obligations.LineWithOperandAddsItUnlessIgnored : Prop :=
  ∀ (r : AsmRegs) (k : Nat) (m x : Text) (e : Symbol), lookup m r.symtab = some e → e.kind = .mnemonic →
    (∀ e', lookup x r.symtab = some e' →
      lineResult r k [m, x] = checkedWord k (if m ∈ operandIgnored then e.value else e.value + e'.value)) ∧
    (∀ v, lookup x r.symtab = none → intLiteral x = some v →
      lineResult r k [m, x] = checkedWord k (if m ∈ operandIgnored then e.value else e.value + v)) ∧
    (∀ rest, lookup x r.symtab = none → intLiteral x = none →
      lineResult r k (m :: x :: rest) = .error { kind := .undefinedSymbol, info := some k })

/-- R85: a token after the operand, on a line without a label and on a line with one. -/
def Obligations.TokenAfterOperandIsRefused : Prop :=
  ∀ (r : AsmRegs) (k : Nat) (m x y : Text) (e : Symbol) (rest : List Text),
    lookup m r.symtab = some e → e.kind = .mnemonic →
    (lookup x r.symtab ≠ none ∨ intLiteral x ≠ none) →
    lineResult r k (m :: x :: y :: rest) = .error { kind := .tooManyTokens, info := some k } ∧
    ∀ (l : Text) (e' : Symbol), lookup l r.symtab = some e' → e'.kind = .label →
      lineResult r k (l :: m :: x :: y :: rest) = .error { kind := .tooManyTokens, info := some k }

/-- R88, R89, R29, R42, R134: pass 2 puts each line's word at the line's address and leaves every other cell 0, or
reports the first line that fails. -/
def Obligations.PassTwoWritesEachLineOrReportsTheFirstFailure : Prop :=
  ∀ (ls : List Text) (r : AsmRegs),
    (∀ r' m, pass2 ls r [] = .ok (r', m) →
      (∀ k l, ls[k]? = some l → lineResult r k (tokens l) = .ok (Memory.read m k)) ∧
      (∀ k, ls.length ≤ k → Memory.read m k = 0)) ∧
    (∀ e, pass2 ls r [] = .error e →
      ∃ k l, ls[k]? = some l ∧ lineResult r k (tokens l) = .error e ∧
        ∀ j l', j < k → ls[j]? = some l' → ∃ w, lineResult r j (tokens l') = .ok w)

/-- R58, R84: the assembler's line gives the encoder's word for every operand the encoding admits; of a mnemonic whose
operand is ignored it gives the value alone, so `HLT 5` gives 0 (log 18). -/
def Obligations.AssembledLineIsTheEncodedInstruction : Prop :=
  ∀ (P : Params) (i : Instr) (name : Text), P.ok → i.wf = true → nameOf i = some name →
    ∃ m, assemble P (some (sourceLine name (decimalDigits (operandField i)))) = .ok m ∧
      Memory.read m 0 = if name ∈ operandIgnored then (opcodeBase i : Int) else encode i

/-- R90: an operand outside 0 to 99 carries into the opcode digit; only the sum is checked. -/
def Obligations.OutOfRangeOperandCarriesIntoTheOpcode : Prop :=
  ∀ (P : Params) (name : Text) (v base : Int), P.ok → name ∈ operandRequired → (name, base) ∈ mnemonicTable →
    (InWord (base + v) →
      ∃ m, assemble P (some (sourceLine name (decimalText v))) = .ok m ∧ Memory.read m 0 = base + v) ∧
    (¬ InWord (base + v) →
      assemble P (some (sourceLine name (decimalText v))) = .error { kind := .wordOutOfRange, info := some 0 })

/-! The host. -/

/-- R119: the rendering of the output. -/
def Obligations.RenderingJoinsTheEventsTexts : Prop :=
  render [] = [] ∧
  (∀ xs ys : List Event, render (xs ++ ys) = render xs ++ render ys) ∧
  (∀ v : Int, 0 ≤ v → render [.num v] = decimalDigits v.toNat) ∧
  (∀ v : Int, v < 0 → render [.num v] = '-' :: decimalDigits (-v).toNat) ∧
  (∀ n : Nat, decimalDigits n ≠ [] ∧ (n ≠ 0 → (decimalDigits n).head? ≠ some '0') ∧
    (∀ c ∈ decimalDigits n, 48 ≤ c.toNat ∧ c.toNat ≤ 57) ∧ unsignedValue (decimalDigits n) = some n) ∧
  (∀ v : Nat, v ≤ 999 → render [.chr (v : Int)] = [Char.ofNat v] ∧ (Char.ofNat v).toNat = v)

/-- R132, with R127's codes: the status of each outcome, that it is non-zero exactly when an error occurred, and that a
machine that has not ended has none. -/
def Obligations.CompletionStatusIsNonZeroExactlyOnError : Prop :=
  (∀ (s : State) (e : AsmError), s.phase = .failed e → completionStatus s = some e.kind.code) ∧
  (∀ s : State, s.phase = .execution → s.run = .halted →
    (s.status = .ok → completionStatus s = some 0) ∧
    ∀ k p v, s.status = .error k p v → completionStatus s = some k.code) ∧
  (∀ s : State, Inv s → ∀ c, completionStatus s = some c →
    (c ≠ 0 ↔ (∃ e, s.phase = .failed e) ∨ ∃ k p v, s.status = .error k p v)) ∧
  (∀ s : State, Inv s → ((∃ c, completionStatus s = some c) ↔
    (∃ e, s.phase = .failed e) ∨ (s.phase = .execution ∧ s.run = .halted))) ∧
  [AsmErrorKind.sourceNotFound, .unsupportedWhitespace, .memoryOverflow, .symbolTableFull, .tooManyTokens,
    .expectedMnemonic, .undefinedSymbol, .missingOperand, .wordOutOfRange].map AsmErrorKind.code =
      [1, 2, 3, 4, 5, 6, 7, 8, 9] ∧
  [ExecErrorKind.memoryOverflow, .invalidInstructionWord, .addressOutOfRange, .accumulatorOverflow, .inputOutOfRange,
    .invalidOpcode].map ExecErrorKind.code = [11, 12, 13, 14, 15, 16]

/-- R125, row by row: the host supplies `SRC` only before assembly and `INPUT` only between assembly and run, and changes
nothing else by it; it gets the assembly's answer and the dump when its row says; it reads `out`, `status` and the
rendering only after `run = Halted`, and that is exactly when a legal run has no next step. Row 1's answer stays readable
until CPU reset by the model's choice (log 17). -/
def Obligations.HostActsOnlyAtItsTimes : Prop :=
  (∀ (src : Option Text) (s t : State), supplySource src s = some t ↔ s.phase = .source ∧ t = { s with src := src }) ∧
  (∀ (input : List Int) (s t : State),
    supplyInput input s = some t ↔ s.phase = .assembled ∧ t = { s with input := input }) ∧
  (∀ (s : State) (r : Except AsmError (List Int)), assemblyResult s = some r ↔
    (∃ e, s.phase = .failed e ∧ r = .error e) ∨
    (s.phase = .assembled ∧ r = .ok (Memory.cells s.params.n s.mem))) ∧
  (∀ (s : State) (d : List Symbol × List Int), debugDump s = some d ↔
    s.phase = .assembled ∧ d = (s.asm.symtab, Memory.cells s.params.n s.mem)) ∧
  (∀ (s : State) (o : List Event), hostOut s = some o ↔ s.phase = .execution ∧ s.run = .halted ∧ o = s.out) ∧
  (∀ (s : State) (x : Status), hostStatus s = some x ↔ s.phase = .execution ∧ s.run = .halted ∧ x = s.status) ∧
  (∀ (s : State) (x : Text), hostText s = some x ↔ s.phase = .execution ∧ s.run = .halted ∧ x = render s.out) ∧
  (∀ s : State, s.phase = .execution → s.run = .running →
    hostOut s = none ∧ hostStatus s = none ∧ hostText s = none ∧ hostBytes s = none ∧ completionStatus s = none ∧
    debugDump s = none ∧ assemblyResult s = none ∧ ∀ src input, supplySource src s = none ∧ supplyInput input s = none) ∧
  ∀ s : State, Inv s → s.phase = .execution → (hostText s = some (render s.out) ↔ ∀ t, step s ≠ .next t)
end

