-- ==== Sys2Proof/Laws/Memory.lean ====
section
/-! SUPPORT. The laws of the memory: read after write, the canonical form, and that canonical memories that read alike
are equal data. -/

namespace Sys2Proof.Machine.Memory

@[simp] theorem read_nil (a : Nat) : read [] a = 0 := rfl

@[simp] theorem wf_nil : wf [] = true := rfl

@[simp] theorem inSpace_nil (n : Nat) : inSpace n [] = true := rfl

theorem wfFrom_cons {lo a : Nat} {v : Int} {m : Memory} :
    wfFrom lo ((a, v) :: m) = true ↔ lo ≤ a ∧ v ≠ 0 ∧ wfFrom (a + 1) m = true := by
  simp [wfFrom, and_assoc]

theorem inSpace_cons {n a : Nat} {v : Int} {m : Memory} :
    inSpace n ((a, v) :: m) = true ↔ a < n ∧ InWord v ∧ inSpace n m = true := by
  simp [inSpace, and_assoc]

/-- A canonical memory that starts at `lo` holds 0 below `lo`. -/
theorem read_below {m : Memory} {lo a : Nat} (h : wfFrom lo m = true) (ha : a < lo) : read m a = 0 := by
  induction m generalizing lo with
  | nil => rfl
  | cons c m ih =>
    obtain ⟨b, v⟩ := c
    obtain ⟨hb, -, hm⟩ := wfFrom_cons.1 h
    rw [read, if_neg (by omega)]
    exact ih hm (by omega)

theorem wfFrom_mono {m : Memory} {lo lo' : Nat} (h : wfFrom lo m = true) (hl : lo' ≤ lo) : wfFrom lo' m = true := by
  cases m with
  | nil => rfl
  | cons c m =>
    obtain ⟨hb, hv, hm⟩ := wfFrom_cons.1 h
    exact wfFrom_cons.2 ⟨by omega, hv, hm⟩

/-- A read after a write to the same cell gives the value written (R44). -/
theorem read_write_same {m : Memory} {lo : Nat} (h : wfFrom lo m = true) (a : Nat) (v : Int) :
    read (write m a v) a = v := by
  induction m generalizing lo with
  | nil => by_cases hv : v = 0 <;> simp [write, read, hv]
  | cons c m ih =>
    obtain ⟨b, w⟩ := c
    obtain ⟨-, -, hm⟩ := wfFrom_cons.1 h
    rw [write]
    split_ifs with hab hv hb hv
    · rw [hv, read, if_neg (by omega)]
      exact read_below hm (by omega)
    · simp [read]
    · rw [hv]
      exact read_below hm (by omega)
    · simp [read]
    · rw [read, if_neg (by omega)]
      exact ih hm

/-- A write leaves every other cell alone. -/
theorem read_write_of_ne (m : Memory) {a b : Nat} (v : Int) (hne : b ≠ a) :
    read (write m a v) b = read m b := by
  induction m with
  | nil => by_cases hv : v = 0 <;> simp [write, read, hv, hne.symm]
  | cons c m ih =>
    obtain ⟨d, w⟩ := c
    rw [write]
    split_ifs with had hv hd hv
    · rfl
    · rw [read, if_neg hne.symm]
    · subst hd; rw [read, if_neg hne.symm]
    · subst hd; rw [read, read, if_neg hne.symm, if_neg hne.symm]
    · rw [read, read, ih]

theorem wfFrom_write {m : Memory} {lo : Nat} (h : wfFrom lo m = true) {a : Nat} (ha : lo ≤ a) (v : Int) :
    wfFrom lo (write m a v) = true := by
  induction m generalizing lo with
  | nil =>
    by_cases hv : v = 0
    · simp [write, hv, wfFrom]
    · simp [write, hv, wfFrom, ha]
  | cons c m ih =>
    obtain ⟨b, w⟩ := c
    obtain ⟨hb, hw, hm⟩ := wfFrom_cons.1 h
    rw [write]
    split_ifs with hab hv hb' hv
    · exact h
    · exact wfFrom_cons.2 ⟨ha, hv, wfFrom_cons.2 ⟨by omega, hw, hm⟩⟩
    · exact wfFrom_mono hm (by omega)
    · subst hb'; exact wfFrom_cons.2 ⟨ha, hv, hm⟩
    · exact wfFrom_cons.2 ⟨hb, hw, ih hm (by omega)⟩

/-- A write keeps the canonical form. -/
theorem wf_write {m : Memory} (h : wf m = true) (a : Nat) (v : Int) : wf (write m a v) = true :=
  wfFrom_write h (Nat.zero_le a) v

/-- A write of a word to a cell of the space keeps every listed cell a word of the space. -/
theorem inSpace_write {n : Nat} {m : Memory} (h : inSpace n m = true) {a : Nat} (ha : a < n) {v : Int}
    (hv : InWord v) : inSpace n (write m a v) = true := by
  induction m with
  | nil =>
    by_cases h0 : v = 0
    · simp [write, h0]
    · simpa [write, h0, inSpace] using ⟨ha, hv⟩
  | cons c m ih =>
    obtain ⟨b, w⟩ := c
    obtain ⟨hb, hw, hm⟩ := inSpace_cons.1 h
    rw [write]
    split_ifs
    · exact h
    · exact inSpace_cons.2 ⟨ha, hv, h⟩
    · exact hm
    · exact inSpace_cons.2 ⟨ha, hv, hm⟩
    · exact inSpace_cons.2 ⟨hb, hw, ih hm⟩

/-- Every cell of a memory of words holds a word. -/
theorem inWord_read {n : Nat} {m : Memory} (h : inSpace n m = true) (a : Nat) : InWord (read m a) := by
  induction m with
  | nil => exact (by decide : InWord 0)
  | cons c m ih =>
    obtain ⟨b, w⟩ := c
    obtain ⟨-, hw, hm⟩ := inSpace_cons.1 h
    rw [read]
    split_ifs
    · exact hw
    · exact ih hm

/-- Canonical memories that read alike are the same data. -/
theorem eq_of_read_eq {m m' : Memory} {lo lo' : Nat} (h : wfFrom lo m = true) (h' : wfFrom lo' m' = true)
    (hr : ∀ a, read m a = read m' a) : m = m' := by
  induction m generalizing m' lo lo' with
  | nil =>
    cases m' with
    | nil => rfl
    | cons c m' =>
      obtain ⟨b, w⟩ := c
      have := hr b
      simp [read] at this
      exact absurd this.symm (wfFrom_cons.1 h').2.1
  | cons c m ih =>
    obtain ⟨b, w⟩ := c
    obtain ⟨-, hw, hm⟩ := wfFrom_cons.1 h
    cases m' with
    | nil => exact absurd (by simpa [read] using hr b) hw
    | cons c' m' =>
      obtain ⟨b', w'⟩ := c'
      obtain ⟨-, hw', hm'⟩ := wfFrom_cons.1 h'
      have hbb : b = b' := by
        rcases Nat.lt_trichotomy b b' with hlt | heq | hgt
        · have := hr b
          rw [read, if_pos rfl, read, if_neg (by omega), read_below hm' (by omega)] at this
          exact absurd this hw
        · exact heq
        · have := hr b'
          rw [read, if_neg (by omega), read_below hm (by omega), read, if_pos rfl] at this
          exact absurd this.symm hw'
      subst hbb
      have hww : w = w' := by simpa [read] using hr b
      subst hww
      congr 1
      refine ih hm hm' fun a => ?_
      by_cases hab : b = a
      · subst hab; rw [read_below hm (by omega), read_below hm' (by omega)]
      · simpa [read, hab] using hr a

end Sys2Proof.Machine.Memory
end

