-- ==== Sys2Proof/Laws/Assembler.lean ====
section
/-! SUPPORT. What the symbol table's operations and each stage of the assembler can do, said once. -/

namespace Sys2Proof.Machine

/-! The table (R73, R74). -/

theorem lookup_append (name : Text) (tab tab' : List Symbol) :
    lookup name (tab ++ tab') = (lookup name tab).or (lookup name tab') := by
  induction tab with
  | nil => rfl
  | cons e tab ih =>
    rw [List.cons_append, lookup, lookup]
    split_ifs
    · rfl
    · exact ih

theorem lookup_eq_none {name : Text} {tab : List Symbol} :
    lookup name tab = none ↔ name ∉ tab.map Symbol.key := by
  induction tab with
  | nil => simp [lookup]
  | cons e tab ih =>
    rw [lookup]
    split_ifs with h
    · simp [h]
    · rw [ih, List.map_cons, List.mem_cons, not_or]
      exact ⟨fun hn => ⟨Ne.symm h, hn⟩, fun hn => hn.2⟩

theorem lookup_some {name : Text} {tab : List Symbol} {e : Symbol} (h : lookup name tab = some e) :
    e ∈ tab ∧ e.key = name := by
  induction tab with
  | nil => cases h
  | cons d tab ih =>
    rw [lookup] at h
    split_ifs at h with hd
    · injection h with h
      subst h
      exact ⟨List.mem_cons_self, hd⟩
    · exact ⟨List.mem_cons_of_mem _ (ih h).1, (ih h).2⟩

/-! Pass 1 (R79, R80). -/

/-- A token past the first declares nothing: pass 1 leaves the table as it is. -/
theorem pass1Token_later {P : Params} {r : AsmRegs} {t : Text} (h : r.slotCount ≠ 0) :
    ∃ c, c ≠ 0 ∧ pass1Token P r t = .ok { r with slotCount := c } := by
  unfold pass1Token
  cases lookup t r.symtab with
  | none => exact ⟨r.slotCount + 1, by omega, by simp [h, advanceSlot]⟩
  | some e =>
    cases hk : e.kind with
    | label => exact ⟨r.slotCount + 1, by omega, by simp [hk, advanceSlot]⟩
    | mnemonic => exact ⟨2, by omega, by simp [hk, advanceSlot]⟩

theorem pass1Tokens_later {P : Params} {r : AsmRegs} (ts : List Text) (h : r.slotCount ≠ 0) :
    ∃ c, pass1Tokens P r ts = .ok { r with slotCount := c } := by
  induction ts generalizing r with
  | nil => exact ⟨r.slotCount, rfl⟩
  | cons t ts ih =>
    obtain ⟨c, hc, ht⟩ := pass1Token_later (P := P) (t := t) h
    obtain ⟨c', hts⟩ := ih (r := { r with slotCount := c }) hc
    exact ⟨c', by rw [pass1Tokens, ht]; exact hts⟩

/-- What pass 1 makes of the table on one line: only an unresolved first token changes it (R80). -/
def declared (cap : Nat) (k : Nat) (tab : List Symbol) : List Text → Option (List Symbol)
  | [] => some tab
  | t :: _ =>
    match lookup t tab with
    | some _ => some tab
    | none => insertSymbol cap .label t k tab

/-- Pass 1 on a line (R80): the line's first token, if it resolves to nothing, is inserted. -/
theorem pass1Tokens_line (P : Params) (r : AsmRegs) (ts : List Text) (h : r.slotCount = 0) :
    match declared P.symtabCap r.line r.symtab ts with
    | some tab => ∃ c, pass1Tokens P r ts = .ok { r with symtab := tab, slotCount := c }
    | none => pass1Tokens P r ts = .error (raiseAt .symbolTableFull r.line) := by
  cases ts with
  | nil => exact ⟨r.slotCount, rfl⟩
  | cons t ts =>
    rw [declared, pass1Tokens, pass1Token]
    cases hl : lookup t r.symtab with
    | some e =>
      cases hk : e.kind with
      | mnemonic =>
        obtain ⟨c, hc⟩ := pass1Tokens_later (P := P) (r := advanceSlot { r with slotCount := 1 }) ts
          (by simp [advanceSlot])
        refine ⟨c, ?_⟩
        simp only [hk]
        exact hc
      | label =>
        obtain ⟨c, hc⟩ := pass1Tokens_later (P := P) (r := advanceSlot r) ts (by simp [advanceSlot])
        refine ⟨c, ?_⟩
        simp only [hk]
        exact hc
    | none =>
      dsimp only
      rw [if_pos h]
      cases hi : insertSymbol P.symtabCap .label t r.line r.symtab with
      | none => rfl
      | some tab =>
        obtain ⟨c, hc⟩ := pass1Tokens_later (P := P) (r := advanceSlot { r with symtab := tab }) ts
          (by simp [advanceSlot])
        exact ⟨c, hc⟩

/-- What pass 1 makes of the table over the lines from number `k` on. -/
def declaredFrom (cap : Nat) (k : Nat) (tab : List Symbol) : List Text → Option (List Symbol)
  | [] => some tab
  | l :: ls => (declared cap k tab (tokens l)).bind fun tab' => declaredFrom cap (k + 1) tab' ls

/-- Pass 1 changes the table as `declaredFrom` says, and fails only where it does. -/
theorem pass1Lines_symtab (P : Params) (ls : List Text) (k : Nat) (r : AsmRegs) :
    match declaredFrom P.symtabCap k r.symtab ls with
    | some tab => ∃ r', pass1Lines P k r ls = .ok r' ∧ r'.symtab = tab
    | none => ∃ j, pass1Lines P k r ls = .error (raiseAt .symbolTableFull j) := by
  induction ls generalizing k r with
  | nil => exact ⟨r, rfl, rfl⟩
  | cons l ls ih =>
    rw [declaredFrom, pass1Lines]
    have hl := pass1Tokens_line P { r with line := k, slotCount := 0 } (tokens l) rfl
    dsimp only at hl
    cases hd : declared P.symtabCap k r.symtab (tokens l) with
    | none => rw [hd] at hl; exact ⟨k, by rw [hl]; rfl⟩
    | some tab =>
      rw [hd] at hl
      obtain ⟨c, hc⟩ := hl
      have := ih (k + 1) { r with line := k, slotCount := c, symtab := tab }
      dsimp only [Option.bind] at this ⊢
      cases hf : declaredFrom P.symtabCap (k + 1) tab ls with
      | none => rw [hf] at this; obtain ⟨j, hj⟩ := this; exact ⟨j, by rw [hc]; exact hj⟩
      | some tab' => rw [hf] at this; obtain ⟨r', hr, ht⟩ := this; exact ⟨r', by rw [hc]; exact hr, ht⟩

theorem pass1_symtab (P : Params) (ls : List Text) (r : AsmRegs) :
    match declaredFrom P.symtabCap 0 r.symtab ls with
    | some tab => ∃ r', pass1 P ls r = .ok r' ∧ r'.symtab = tab
    | none => ∃ j, pass1 P ls r = .error (raiseAt .symbolTableFull j) :=
  pass1Lines_symtab P ls 0 { r with line := 0 }

theorem pass1_ok {P : Params} {ls : List Text} {r r' : AsmRegs} (h : pass1 P ls r = .ok r') :
    declaredFrom P.symtabCap 0 r.symtab ls = some r'.symtab := by
  have := pass1_symtab P ls r
  cases hd : declaredFrom P.symtabCap 0 r.symtab ls with
  | none => rw [hd] at this; obtain ⟨j, hj⟩ := this; rw [h] at hj; cases hj
  | some tab =>
    rw [hd] at this
    obtain ⟨r'', hr, ht⟩ := this
    rw [h] at hr
    injection hr with hr
    rw [hr, ht]

/-- A line leaves the table, or appends the label its first token declares. -/
theorem declared_cases {cap k : Nat} {tab tab' : List Symbol} {ts : List Text} (h : declared cap k tab ts = some tab') :
    tab' = tab ∨ ∃ t, ts.head? = some t ∧ lookup t tab = none ∧ tab.length ≠ cap ∧
      tab' = tab ++ [{ kind := .label, key := t, value := (k : Int) }] := by
  cases ts with
  | nil => injection h with h; exact .inl h.symm
  | cons t ts =>
    rw [declared] at h
    cases hl : lookup t tab with
    | some e => rw [hl] at h; injection h with h; exact .inl h.symm
    | none =>
      rw [hl] at h
      dsimp only at h
      rw [insertSymbol] at h
      split_ifs at h with hc
      injection h with h
      exact .inr ⟨t, rfl, hl, hc, h.symm⟩

/-! Pass 2 (R81 to R89). -/

/-- A token of pass 2 leaves the table, the line number and pass 1's counter alone. -/
theorem pass2Token_keeps {r r' : AsmRegs} {t : Text} (h : pass2Token r t = .ok r') :
    r'.symtab = r.symtab ∧ r'.line = r.line ∧ r'.slotCount = r.slotCount := by
  have hop : ∀ {r r' : AsmRegs}, opSlot r t = .ok r' → r'.symtab = r.symtab ∧ r'.line = r.line ∧ r'.slotCount = r.slotCount := by
    intro r r' h
    rw [opSlot] at h
    split at h
    · split at h
      · injection h with h; subst h; exact ⟨rfl, rfl, rfl⟩
      · cases h
    · cases h
  rw [pass2Token] at h
  split at h
  · rw [labelSlot] at h
    split at h
    · split at h
      · injection h with h; subst h; exact ⟨rfl, rfl, rfl⟩
      · exact hop h
    · injection h with h; subst h; exact ⟨rfl, rfl, rfl⟩
  · exact hop h
  · rw [dataSlot] at h
    cases hr : resolve r t with
    | error e => rw [hr] at h; cases h
    | ok v => rw [hr] at h; injection h with h; subst h; exact ⟨rfl, rfl, rfl⟩
  · cases h

theorem pass2Tokens_keeps {r r' : AsmRegs} {ts : List Text} (h : pass2Tokens r ts = .ok r') :
    r'.symtab = r.symtab ∧ r'.line = r.line ∧ r'.slotCount = r.slotCount := by
  induction ts generalizing r with
  | nil => injection h with h; subst h; exact ⟨rfl, rfl, rfl⟩
  | cons t ts ih =>
    rw [pass2Tokens] at h
    cases ht : pass2Token r t with
    | error e => rw [ht] at h; cases h
    | ok r1 =>
      rw [ht] at h
      obtain ⟨h1, h2, h3⟩ := ih h
      obtain ⟨h4, h5, h6⟩ := pass2Token_keeps ht
      exact ⟨h1.trans h4, h2.trans h5, h3.trans h6⟩

/-- The word a line lets through is in range (R88). -/
theorem lineWord_inWord {r : AsmRegs} {w : Int} (h : lineWord r = .ok w) : InWord w := by
  rw [lineWord] at h
  split_ifs at h with _ hw
  injection h with h
  exact h ▸ hw

/-- Pass 2 over the lines keeps the table and a legal memory (R33, R88). -/
theorem pass2Lines_keeps {n k : Nat} {ls : List Text} {r r' : AsmRegs} {m m' : Memory}
    (h : pass2Lines k r m ls = .ok (r', m')) (hk : k + ls.length ≤ n) (hwf : Memory.wf m = true)
    (hin : Memory.inSpace n m = true) :
    r'.symtab = r.symtab ∧ Memory.wf m' = true ∧ Memory.inSpace n m' = true := by
  induction ls generalizing k r m with
  | nil =>
    injection h with h
    injection h with h1 h2
    subst h1 h2
    exact ⟨rfl, hwf, hin⟩
  | cons l ls ih =>
    rw [pass2Lines] at h
    rw [List.length_cons] at hk
    cases ht : pass2Tokens (startLine r k) (tokens l) with
    | error e => rw [ht] at h; cases h
    | ok r1 =>
      rw [ht] at h
      change (lineWord r1).bind _ = _ at h
      cases hw : lineWord r1 with
      | error e => rw [hw] at h; cases h
      | ok w =>
        rw [hw] at h
        obtain ⟨h1, h2⟩ := ih h (by omega) (Memory.wf_write hwf _ _)
          (Memory.inSpace_write hin (by omega) (lineWord_inWord hw))
        exact ⟨h1.trans (pass2Tokens_keeps ht).1, h2⟩

/-! The machine's assembly steps. -/

theorem prepareStep_cases (s : State) :
    (∃ ls, prepare s.params s.src = .ok ls ∧
      prepareStep s = { s with phase := .pass1, mem := [], asm := AsmRegs.reset }) ∨
    ∃ e, prepare s.params s.src = .error e ∧ prepareStep s = s.failAssembly e := by
  unfold prepareStep
  cases prepare s.params s.src with
  | ok ls => exact .inl ⟨ls, rfl, rfl⟩
  | error e => exact .inr ⟨e, rfl, rfl⟩

theorem pass1Step_cases (s : State) :
    (∃ r, pass1 s.params s.sourceLines s.asm = .ok r ∧ pass1Step s = { s with phase := .pass2, asm := r }) ∨
    ∃ e, pass1 s.params s.sourceLines s.asm = .error e ∧ pass1Step s = s.failAssembly e := by
  unfold pass1Step
  cases pass1 s.params s.sourceLines s.asm with
  | ok r => exact .inl ⟨r, rfl, rfl⟩
  | error e => exact .inr ⟨e, rfl, rfl⟩

theorem pass2Step_cases (s : State) :
    (∃ r m, pass2 s.sourceLines s.asm s.mem = .ok (r, m) ∧
      pass2Step s = { s with phase := .assembled, asm := r, mem := m }) ∨
    ∃ e, pass2 s.sourceLines s.asm s.mem = .error e ∧ pass2Step s = s.failAssembly e := by
  unfold pass2Step
  cases pass2 s.sourceLines s.asm s.mem with
  | ok res => exact .inl ⟨res.1, res.2, rfl, rfl⟩
  | error e => exact .inr ⟨e, rfl, rfl⟩

/-- The source the checks let through is present and has at most `N` lines (R66, R77). -/
theorem prepare_ok {P : Params} {src : Option Text} {ls : List Text} (h : prepare P src = .ok ls) :
    ∃ cs, src = some cs ∧ ls = lines cs ∧ ls.length ≤ P.n := by
  cases src with
  | none => cases h
  | some cs =>
    rw [prepare] at h
    split at h
    · cases h
    · split_ifs at h with hn
      injection h with h
      exact ⟨cs, rfl, h.symm, by rw [← h]; omega⟩

end Sys2Proof.Machine
end

