-- ==== Sys2Proof/Laws/State.lean ====
section
/-! SUPPORT. One lemma per field per state update, true by unfolding, so that no later proof unfolds a record update. -/

namespace Sys2Proof.Machine.State

variable (s : State)

/-! `setPc` -/

@[simp] theorem setPc_params (a : Nat) : (s.setPc a).params = s.params := rfl
@[simp] theorem setPc_phase (a : Nat) : (s.setPc a).phase = s.phase := rfl
@[simp] theorem setPc_src (a : Nat) : (s.setPc a).src = s.src := rfl
@[simp] theorem setPc_input (a : Nat) : (s.setPc a).input = s.input := rfl
@[simp] theorem setPc_mem (a : Nat) : (s.setPc a).mem = s.mem := rfl
@[simp] theorem setPc_pc (a : Nat) : (s.setPc a).pc = a := rfl
@[simp] theorem setPc_acc (a : Nat) : (s.setPc a).acc = s.acc := rfl
@[simp] theorem setPc_inPos (a : Nat) : (s.setPc a).inPos = s.inPos := rfl
@[simp] theorem setPc_out (a : Nat) : (s.setPc a).out = s.out := rfl
@[simp] theorem setPc_run (a : Nat) : (s.setPc a).run = s.run := rfl
@[simp] theorem setPc_status (a : Nat) : (s.setPc a).status = s.status := rfl
@[simp] theorem setPc_asm (a : Nat) : (s.setPc a).asm = s.asm := rfl

/-! `incPc` -/

@[simp] theorem incPc_params : (s.incPc).params = s.params := rfl
@[simp] theorem incPc_phase : (s.incPc).phase = s.phase := rfl
@[simp] theorem incPc_src : (s.incPc).src = s.src := rfl
@[simp] theorem incPc_input : (s.incPc).input = s.input := rfl
@[simp] theorem incPc_mem : (s.incPc).mem = s.mem := rfl
@[simp] theorem incPc_pc : (s.incPc).pc = s.pc + 1 := rfl
@[simp] theorem incPc_acc : (s.incPc).acc = s.acc := rfl
@[simp] theorem incPc_inPos : (s.incPc).inPos = s.inPos := rfl
@[simp] theorem incPc_out : (s.incPc).out = s.out := rfl
@[simp] theorem incPc_run : (s.incPc).run = s.run := rfl
@[simp] theorem incPc_status : (s.incPc).status = s.status := rfl
@[simp] theorem incPc_asm : (s.incPc).asm = s.asm := rfl

/-! `setAcc` -/

@[simp] theorem setAcc_params (v : Int) : (s.setAcc v).params = s.params := rfl
@[simp] theorem setAcc_phase (v : Int) : (s.setAcc v).phase = s.phase := rfl
@[simp] theorem setAcc_src (v : Int) : (s.setAcc v).src = s.src := rfl
@[simp] theorem setAcc_input (v : Int) : (s.setAcc v).input = s.input := rfl
@[simp] theorem setAcc_mem (v : Int) : (s.setAcc v).mem = s.mem := rfl
@[simp] theorem setAcc_pc (v : Int) : (s.setAcc v).pc = s.pc := rfl
@[simp] theorem setAcc_acc (v : Int) : (s.setAcc v).acc = v := rfl
@[simp] theorem setAcc_inPos (v : Int) : (s.setAcc v).inPos = s.inPos := rfl
@[simp] theorem setAcc_out (v : Int) : (s.setAcc v).out = s.out := rfl
@[simp] theorem setAcc_run (v : Int) : (s.setAcc v).run = s.run := rfl
@[simp] theorem setAcc_status (v : Int) : (s.setAcc v).status = s.status := rfl
@[simp] theorem setAcc_asm (v : Int) : (s.setAcc v).asm = s.asm := rfl

/-! `setCell` -/

@[simp] theorem setCell_params (a : Nat) (v : Int) : (s.setCell a v).params = s.params := rfl
@[simp] theorem setCell_phase (a : Nat) (v : Int) : (s.setCell a v).phase = s.phase := rfl
@[simp] theorem setCell_src (a : Nat) (v : Int) : (s.setCell a v).src = s.src := rfl
@[simp] theorem setCell_input (a : Nat) (v : Int) : (s.setCell a v).input = s.input := rfl
@[simp] theorem setCell_mem (a : Nat) (v : Int) : (s.setCell a v).mem = Memory.write s.mem a v := rfl
@[simp] theorem setCell_pc (a : Nat) (v : Int) : (s.setCell a v).pc = s.pc := rfl
@[simp] theorem setCell_acc (a : Nat) (v : Int) : (s.setCell a v).acc = s.acc := rfl
@[simp] theorem setCell_inPos (a : Nat) (v : Int) : (s.setCell a v).inPos = s.inPos := rfl
@[simp] theorem setCell_out (a : Nat) (v : Int) : (s.setCell a v).out = s.out := rfl
@[simp] theorem setCell_run (a : Nat) (v : Int) : (s.setCell a v).run = s.run := rfl
@[simp] theorem setCell_status (a : Nat) (v : Int) : (s.setCell a v).status = s.status := rfl
@[simp] theorem setCell_asm (a : Nat) (v : Int) : (s.setCell a v).asm = s.asm := rfl

/-! `advanceInput` -/

@[simp] theorem advanceInput_params : (s.advanceInput).params = s.params := rfl
@[simp] theorem advanceInput_phase : (s.advanceInput).phase = s.phase := rfl
@[simp] theorem advanceInput_src : (s.advanceInput).src = s.src := rfl
@[simp] theorem advanceInput_input : (s.advanceInput).input = s.input := rfl
@[simp] theorem advanceInput_mem : (s.advanceInput).mem = s.mem := rfl
@[simp] theorem advanceInput_pc : (s.advanceInput).pc = s.pc := rfl
@[simp] theorem advanceInput_acc : (s.advanceInput).acc = s.acc := rfl
@[simp] theorem advanceInput_inPos : (s.advanceInput).inPos = s.inPos + 1 := rfl
@[simp] theorem advanceInput_out : (s.advanceInput).out = s.out := rfl
@[simp] theorem advanceInput_run : (s.advanceInput).run = s.run := rfl
@[simp] theorem advanceInput_status : (s.advanceInput).status = s.status := rfl
@[simp] theorem advanceInput_asm : (s.advanceInput).asm = s.asm := rfl

/-! `emit` -/

@[simp] theorem emit_params (ev : Event) : (s.emit ev).params = s.params := rfl
@[simp] theorem emit_phase (ev : Event) : (s.emit ev).phase = s.phase := rfl
@[simp] theorem emit_src (ev : Event) : (s.emit ev).src = s.src := rfl
@[simp] theorem emit_input (ev : Event) : (s.emit ev).input = s.input := rfl
@[simp] theorem emit_mem (ev : Event) : (s.emit ev).mem = s.mem := rfl
@[simp] theorem emit_pc (ev : Event) : (s.emit ev).pc = s.pc := rfl
@[simp] theorem emit_acc (ev : Event) : (s.emit ev).acc = s.acc := rfl
@[simp] theorem emit_inPos (ev : Event) : (s.emit ev).inPos = s.inPos := rfl
@[simp] theorem emit_out (ev : Event) : (s.emit ev).out = s.out ++ [ev] := rfl
@[simp] theorem emit_run (ev : Event) : (s.emit ev).run = s.run := rfl
@[simp] theorem emit_status (ev : Event) : (s.emit ev).status = s.status := rfl
@[simp] theorem emit_asm (ev : Event) : (s.emit ev).asm = s.asm := rfl

/-! `halt` -/

@[simp] theorem halt_params (st : Status) : (s.halt st).params = s.params := rfl
@[simp] theorem halt_phase (st : Status) : (s.halt st).phase = s.phase := rfl
@[simp] theorem halt_src (st : Status) : (s.halt st).src = s.src := rfl
@[simp] theorem halt_input (st : Status) : (s.halt st).input = s.input := rfl
@[simp] theorem halt_mem (st : Status) : (s.halt st).mem = s.mem := rfl
@[simp] theorem halt_pc (st : Status) : (s.halt st).pc = s.pc := rfl
@[simp] theorem halt_acc (st : Status) : (s.halt st).acc = s.acc := rfl
@[simp] theorem halt_inPos (st : Status) : (s.halt st).inPos = s.inPos := rfl
@[simp] theorem halt_out (st : Status) : (s.halt st).out = s.out := rfl
@[simp] theorem halt_run (st : Status) : (s.halt st).run = .halted := rfl
@[simp] theorem halt_status (st : Status) : (s.halt st).status = st := rfl
@[simp] theorem halt_asm (st : Status) : (s.halt st).asm = s.asm := rfl

/-! `takeError` -/

@[simp] theorem takeError_params (p : Nat) (r : Raise) : (s.takeError p r).params = s.params := rfl
@[simp] theorem takeError_phase (p : Nat) (r : Raise) : (s.takeError p r).phase = s.phase := rfl
@[simp] theorem takeError_src (p : Nat) (r : Raise) : (s.takeError p r).src = s.src := rfl
@[simp] theorem takeError_input (p : Nat) (r : Raise) : (s.takeError p r).input = s.input := rfl
@[simp] theorem takeError_mem (p : Nat) (r : Raise) : (s.takeError p r).mem = s.mem := rfl
@[simp] theorem takeError_pc (p : Nat) (r : Raise) : (s.takeError p r).pc = s.pc := rfl
@[simp] theorem takeError_acc (p : Nat) (r : Raise) : (s.takeError p r).acc = s.acc := rfl
@[simp] theorem takeError_inPos (p : Nat) (r : Raise) : (s.takeError p r).inPos = s.inPos := rfl
@[simp] theorem takeError_out (p : Nat) (r : Raise) : (s.takeError p r).out = s.out := rfl
@[simp] theorem takeError_run (p : Nat) (r : Raise) : (s.takeError p r).run = .halted := rfl
@[simp] theorem takeError_status (p : Nat) (r : Raise) : (s.takeError p r).status = .error r.kind p (some r.info) := rfl
@[simp] theorem takeError_asm (p : Nat) (r : Raise) : (s.takeError p r).asm = s.asm := rfl

end Sys2Proof.Machine.State
end

