-- ==== Sys2Proof/Laws/Ops.lean ====
section
/-! SUPPORT. What each shared operation can do, said once. -/

namespace Sys2Proof.Machine

/-! The accesses (R37, R38). -/

theorem memRead_of_lt {s : State} {a : Nat} (h : a < s.params.n) : memRead s a = .ok (Memory.read s.mem a) := by
  rw [memRead, if_neg (by omega), Int.toNat_natCast]

theorem memRead_of_not_mem {s : State} {a : Int} (h : a < 0 ∨ (s.params.n : Int) ≤ a) :
    memRead s a = .error { kind := .addressOutOfRange, info := a } := by
  simp [memRead, h]

/-- A read gives the cell's word, or `AddressOutOfRange` for an address outside the space. -/
theorem memRead_cases (s : State) (a : Int) :
    (0 ≤ a ∧ a < (s.params.n : Int) ∧ memRead s a = .ok (Memory.read s.mem a.toNat)) ∨
    ((a < 0 ∨ (s.params.n : Int) ≤ a) ∧ memRead s a = .error { kind := .addressOutOfRange, info := a }) := by
  by_cases h : a < 0 ∨ (s.params.n : Int) ≤ a
  · exact .inr ⟨h, memRead_of_not_mem h⟩
  · exact .inl ⟨by omega, by omega, by simp [memRead, h]⟩

theorem memWrite_of_lt {s : State} {a : Nat} {v : Int} (h : a < s.params.n) :
    memWrite s a v = .ok (s.setCell a v) := by
  rw [memWrite, if_neg (by omega), Int.toNat_natCast]

theorem memWrite_of_not_mem {s : State} {a : Int} {v : Int} (h : a < 0 ∨ (s.params.n : Int) ≤ a) :
    memWrite s a v = .error { kind := .addressOutOfRange, info := a } := by
  simp [memWrite, h]

/-- A write changes the one cell, or is `AddressOutOfRange` for an address outside the space. -/
theorem memWrite_cases (s : State) (a : Int) (v : Int) :
    (0 ≤ a ∧ a < (s.params.n : Int) ∧ memWrite s a v = .ok (s.setCell a.toNat v)) ∨
    ((a < 0 ∨ (s.params.n : Int) ≤ a) ∧ memWrite s a v = .error { kind := .addressOutOfRange, info := a }) := by
  by_cases h : a < 0 ∨ (s.params.n : Int) ≤ a
  · exact .inr ⟨h, memWrite_of_not_mem h⟩
  · exact .inl ⟨by omega, by omega, by simp [memWrite, h]⟩

/-- An access to memory reads `params` and `mem` only. -/
theorem memRead_congr {s t : State} (hp : s.params = t.params) (hm : s.mem = t.mem) (a : Int) :
    memRead s a = memRead t a := by
  simp [memRead, hp, hm]

theorem readDirect_of_lt {s : State} {a : Nat} (h : a < s.params.n) :
    readDirect s a = .ok (Memory.read s.mem a) := memRead_of_lt h

theorem readDirect_of_le {s : State} {a : Nat} (h : s.params.n ≤ a) :
    readDirect s a = .error { kind := .addressOutOfRange, info := a } := 
  memRead_of_not_mem (.inr (Int.ofNat_le.2 h))

theorem writeDirect_of_lt {s : State} {a : Nat} {v : Int} (h : a < s.params.n) :
    writeDirect s a v = .ok (s.setCell a v) := memWrite_of_lt h

theorem writeDirect_of_le {s : State} {a : Nat} {v : Int} (h : s.params.n ≤ a) :
    writeDirect s a v = .error { kind := .addressOutOfRange, info := a } := 
  memWrite_of_not_mem (.inr (Int.ofNat_le.2 h))

theorem readIndirect_of_lt {s : State} {a : Nat} (h : a < s.params.n) :
    readIndirect s a = memRead s (Memory.read s.mem a) := by
  have := readDirect_of_lt h
  simp only [readDirect] at this
  simp [readIndirect, this, bind, Except.bind]

theorem readIndirect_of_le {s : State} {a : Nat} (h : s.params.n ≤ a) :
    readIndirect s a = .error { kind := .addressOutOfRange, info := a } := by
  have := readDirect_of_le h
  simp only [readDirect] at this
  simp [readIndirect, this, bind, Except.bind]

/-! The range checks (R104, R122). -/

theorem narrowResult_of_inWord {r : Int} (h : InWord r) : narrowResult r = .ok r := if_pos h

theorem narrowResult_of_not_inWord {r : Int} (h : ¬ InWord r) :
    narrowResult r = .error { kind := .accumulatorOverflow, info := r } := if_neg h

theorem narrowInput_of_inWord {v : Int} (h : InWord v) : narrowInput v = .ok v := if_pos h

theorem narrowInput_of_not_inWord {v : Int} (h : ¬ InWord v) :
    narrowInput v = .error { kind := .inputOutOfRange, info := v } := if_neg h

/-! One instruction around its effect (R96, R130). -/

theorem execute_of_ok {s t : State} {f : State → Except Raise State} (h : f s.incPc = .ok t) :
    execute s f = .next t := by
  simp [execute, h]

theorem execute_of_error {s : State} {f : State → Except Raise State} {r : Raise} (h : f s.incPc = .error r) :
    execute s f = .next (s.incPc.takeError s.pc r) := by
  simp [execute, h]

/-- An instruction always completes: with its effect on the state whose pc has moved on, or with the error its effect
raises, taken on that state. -/
theorem execute_cases {s t : State} {f : State → Except Raise State} (h : execute s f = .next t) :
    f s.incPc = .ok t ∨ ∃ r, f s.incPc = .error r ∧ t = s.incPc.takeError s.pc r := by
  cases hf : f s.incPc with
  | ok u => rw [execute_of_ok hf] at h; exact .inl (by injection h with h; rw [h])
  | error r => rw [execute_of_error hf] at h; exact .inr ⟨r, rfl, by injection h with h; exact h.symm⟩

theorem execute_next (s : State) (f : State → Except Raise State) : ∃ t, execute s f = .next t := by
  cases hf : f s.incPc with
  | ok u => exact ⟨u, execute_of_ok hf⟩
  | error r => exact ⟨_, execute_of_error hf⟩

/-! Fetch (R96 to R98). -/

theorem fetch_of_le {s : State} (h : s.params.n ≤ s.pc) :
    fetch s = .raises { kind := .memoryOverflow, info := s.pc } := if_pos h

theorem fetch_of_lt {s : State} (h : s.pc < s.params.n) : fetch s = fetchedOf (Memory.read s.mem s.pc) := by
  rw [fetch, if_neg (by omega), memRead_of_lt h]

/-- A fetch runs past the end, or finds a cell and decodes it. -/
theorem fetch_cases (s : State) :
    (s.params.n ≤ s.pc ∧ fetch s = .raises { kind := .memoryOverflow, info := s.pc }) ∨
    (s.pc < s.params.n ∧ fetch s = fetchedOf (Memory.read s.mem s.pc)) := by
  rcases Nat.lt_or_ge s.pc s.params.n with h | h
  · exact .inr ⟨h, fetch_of_lt h⟩
  · exact .inl ⟨h, fetch_of_le h⟩

/-! The decoder's classes (R52). -/

theorem decode_of_word {w : Nat} (h : w ≤ 999) : decode (w : Int) = .instr (decodeDigits w) := by
  have h1 : InWord (w : Int) := by simp [InWord, wordMin, wordMax]; omega
  have h2 : ¬ ((w : Int) < 0) := by omega
  simp [decode, h1, h2]

theorem decode_of_negative {w : Int} (h : InWord w) (hn : w < 0) : decode w = .invalidWord w := by
  simp [decode, h, hn]

theorem decode_of_not_inWord {w : Int} (h : ¬ InWord w) : decode w = .noWord w := if_pos h

/-- Every integer falls into exactly one class. -/
theorem decode_cases (w : Int) :
    (0 ≤ w ∧ w ≤ 999 ∧ decode w = .instr (decodeDigits w.toNat)) ∨
    (InWord w ∧ w < 0 ∧ decode w = .invalidWord w) ∨ (¬ InWord w ∧ decode w = .noWord w) := by
  by_cases h : InWord w
  · by_cases hn : w < 0
    · exact .inr (.inl ⟨h, hn, decode_of_negative h hn⟩)
    · exact .inl ⟨by omega, by have := h.2; simp [wordMax] at this; omega, by simp [decode, h, hn]⟩
  · exact .inr (.inr ⟨h, decode_of_not_inWord h⟩)

end Sys2Proof.Machine
end

