-- ==== Sys2Proof/Laws/Exec.lean ====
section
/-! SUPPORT. What executing an instruction can do, said once: every claim over all instructions splits on
`exec_cases`. -/

namespace Sys2Proof.Machine

/-- What an instruction does when it raises nothing. -/
def Effect (i : Instr) (s t : State) : Prop :=
  match i with
  | .hlt _ => t = s.incPc.halt .ok
  | .add a => a < s.params.n ∧ InWord (s.acc + Memory.read s.mem a) ∧
      t = s.incPc.setAcc (s.acc + Memory.read s.mem a)
  | .sub a => a < s.params.n ∧ InWord (s.acc - Memory.read s.mem a) ∧
      t = s.incPc.setAcc (s.acc - Memory.read s.mem a)
  | .sta a => a < s.params.n ∧ t = s.incPc.setCell a s.acc
  | .ldd a => a < s.params.n ∧ ∃ q : Nat, Memory.read s.mem a = (q : Int) ∧ q < s.params.n ∧
      t = s.incPc.setAcc (Memory.read s.mem q)
  | .lda a => a < s.params.n ∧ t = s.incPc.setAcc (Memory.read s.mem a)
  | .bra a => t = s.incPc.setPc a
  | .brz a => t = if s.acc = 0 then s.incPc.setPc a else s.incPc
  | .brp a => t = if 0 < s.acc then s.incPc.setPc a else s.incPc
  | .inp => (∃ v, s.input[s.inPos]? = some v ∧ InWord v ∧ t = (s.incPc.setAcc v).advanceInput) ∨
      (s.input[s.inPos]? = none ∧ t = s.incPc.setAcc 0)
  | .out => t = s.incPc.emit (.num s.acc)
  | .prt => t = s.incPc.emit (.chr s.acc)
  | .unassigned _ => s.params.invalidOpcodeFatal = false ∧ t = s.incPc

/-- Which error an instruction raises, and when (R127, R133). -/
def RaisesError (i : Instr) (s : State) (r : Raise) : Prop :=
  match i with
  | .add a => s.params.n ≤ a ∧ r = ⟨.addressOutOfRange, a⟩ ∨
      a < s.params.n ∧ ¬ InWord (s.acc + Memory.read s.mem a) ∧
        r = ⟨.accumulatorOverflow, s.acc + Memory.read s.mem a⟩
  | .sub a => s.params.n ≤ a ∧ r = ⟨.addressOutOfRange, a⟩ ∨
      a < s.params.n ∧ ¬ InWord (s.acc - Memory.read s.mem a) ∧
        r = ⟨.accumulatorOverflow, s.acc - Memory.read s.mem a⟩
  | .sta a => s.params.n ≤ a ∧ r = ⟨.addressOutOfRange, a⟩
  | .ldd a => s.params.n ≤ a ∧ r = ⟨.addressOutOfRange, a⟩ ∨
      a < s.params.n ∧ (Memory.read s.mem a < 0 ∨ (s.params.n : Int) ≤ Memory.read s.mem a) ∧
        r = ⟨.addressOutOfRange, Memory.read s.mem a⟩
  | .lda a => s.params.n ≤ a ∧ r = ⟨.addressOutOfRange, a⟩
  | .inp => ∃ v, s.input[s.inPos]? = some v ∧ ¬ InWord v ∧ r = ⟨.inputOutOfRange, v⟩
  | .unassigned sel => s.params.invalidOpcodeFatal = true ∧ r = ⟨.invalidOpcode, encode (.unassigned sel)⟩
  | .hlt _ | .bra _ | .brz _ | .brp _ | .out | .prt => False

theorem exec_eq_of_effect {i : Instr} {s t : State} (h : Effect i s t) : exec i s = .next t := by
  cases i with
  | hlt a => subst h; rfl
  | add a =>
    obtain ⟨ha, hv, rfl⟩ := h
    rw [exec, execAdd]; exact execute_of_ok (by simp [readDirect_of_lt (s := s.incPc) ha, narrowResult_of_inWord hv, bind, Except.bind, pure, Except.pure])
  | sub a =>
    obtain ⟨ha, hv, rfl⟩ := h
    rw [exec, execSub]; exact execute_of_ok (by simp [readDirect_of_lt (s := s.incPc) ha, narrowResult_of_inWord hv, bind, Except.bind, pure, Except.pure])
  | sta a =>
    obtain ⟨ha, rfl⟩ := h
    rw [exec, execSta]; exact execute_of_ok (by simp [writeDirect_of_lt (s := s.incPc) ha])
  | ldd a =>
    obtain ⟨ha, q, hq, hqn, rfl⟩ := h
    rw [exec, execLdd]; exact execute_of_ok (by
      simp [readIndirect_of_lt (s := s.incPc) ha, hq, memRead_of_lt (s := s.incPc) hqn, bind, Except.bind, pure, Except.pure])
  | lda a =>
    obtain ⟨ha, rfl⟩ := h
    rw [exec, execLda]; exact execute_of_ok (by simp [readDirect_of_lt (s := s.incPc) ha, bind, Except.bind, pure, Except.pure])
  | bra a => subst h; rfl
  | brz a =>
    subst h
    by_cases hz : s.acc = 0
    · simp only [hz, if_true]; rw [exec, execBrz]; exact execute_of_ok (by simp [accIsZero, hz, branchTarget, pure, Except.pure])
    · simp only [hz, if_false]; rw [exec, execBrz]; exact execute_of_ok (by simp [accIsZero, hz, pure, Except.pure])
  | brp a =>
    subst h
    by_cases hz : 0 < s.acc
    · simp only [hz, if_true]; rw [exec, execBrp]; exact execute_of_ok (by simp [accIsPositive, hz, branchTarget, pure, Except.pure])
    · simp only [hz, if_false]
      rw [exec, execBrp]; exact execute_of_ok (by rw [accIsPositive, State.incPc_acc, decide_eq_false hz]; rfl)
  | inp =>
    rcases h with ⟨v, hi, hv, rfl⟩ | ⟨hi, rfl⟩
    · rw [exec, execInp]; exact execute_of_ok (by simp [hi, narrowInput_of_inWord hv, bind, Except.bind, pure, Except.pure])
    · rw [exec, execInp]; exact execute_of_ok (by simp only [State.incPc_input, State.incPc_inPos, hi]; rfl)
  | out => subst h; rfl
  | prt => subst h; rfl
  | unassigned sel =>
    obtain ⟨hf, rfl⟩ := h
    rw [exec, execUnassigned]; exact execute_of_ok (by simp [hf, pure, Except.pure])

theorem exec_eq_of_raises {i : Instr} {s : State} {r : Raise} (h : RaisesError i s r) :
    exec i s = .next (s.incPc.takeError s.pc r) := by
  cases i with
  | hlt a => exact h.elim
  | add a =>
    rcases h with ⟨ha, rfl⟩ | ⟨ha, hv, rfl⟩
    · rw [exec, execAdd]; exact execute_of_error (by simp [readDirect_of_le (s := s.incPc) ha, bind, Except.bind])
    · rw [exec, execAdd]; exact execute_of_error (by simp [readDirect_of_lt (s := s.incPc) ha, narrowResult_of_not_inWord hv, bind, Except.bind])
  | sub a =>
    rcases h with ⟨ha, rfl⟩ | ⟨ha, hv, rfl⟩
    · rw [exec, execSub]; exact execute_of_error (by simp [readDirect_of_le (s := s.incPc) ha, bind, Except.bind])
    · rw [exec, execSub]; exact execute_of_error (by simp [readDirect_of_lt (s := s.incPc) ha, narrowResult_of_not_inWord hv, bind, Except.bind])
  | sta a =>
    obtain ⟨ha, rfl⟩ := h
    rw [exec, execSta]; exact execute_of_error (by simp [writeDirect_of_le (s := s.incPc) ha])
  | ldd a =>
    rcases h with ⟨ha, rfl⟩ | ⟨ha, hq, rfl⟩
    · rw [exec, execLdd]; exact execute_of_error (by simp [readIndirect_of_le (s := s.incPc) ha, bind, Except.bind])
    · rw [exec, execLdd]; exact execute_of_error (by
        simp only [readIndirect_of_lt (s := s.incPc) ha, memRead_of_not_mem (s := s.incPc) hq, State.incPc_mem]; rfl)
  | lda a =>
    obtain ⟨ha, rfl⟩ := h
    rw [exec, execLda]; exact execute_of_error (by simp [readDirect_of_le (s := s.incPc) ha, bind, Except.bind])
  | bra a => exact h.elim
  | brz a => exact h.elim
  | brp a => exact h.elim
  | inp =>
    obtain ⟨v, hi, hv, rfl⟩ := h
    rw [exec, execInp]; exact execute_of_error (by simp [hi, narrowInput_of_not_inWord hv, bind, Except.bind])
  | out => exact h.elim
  | prt => exact h.elim
  | unassigned sel =>
    obtain ⟨hf, rfl⟩ := h
    rw [exec, execUnassigned]; exact execute_of_error (by simp [hf])

/-- An instruction has its effect on some state, or raises some error. -/
theorem effect_or_raises (i : Instr) (s : State) : (∃ t, Effect i s t) ∨ ∃ r, RaisesError i s r := by
  cases i with
  | hlt a => exact .inl ⟨_, rfl⟩
  | add a =>
    by_cases ha : a < s.params.n
    · by_cases hv : InWord (s.acc + Memory.read s.mem a)
      · exact .inl ⟨_, ha, hv, rfl⟩
      · exact .inr ⟨_, .inr ⟨ha, hv, rfl⟩⟩
    · exact .inr ⟨_, .inl ⟨by omega, rfl⟩⟩
  | sub a =>
    by_cases ha : a < s.params.n
    · by_cases hv : InWord (s.acc - Memory.read s.mem a)
      · exact .inl ⟨_, ha, hv, rfl⟩
      · exact .inr ⟨_, .inr ⟨ha, hv, rfl⟩⟩
    · exact .inr ⟨_, .inl ⟨by omega, rfl⟩⟩
  | sta a =>
    by_cases ha : a < s.params.n
    · exact .inl ⟨_, ha, rfl⟩
    · exact .inr ⟨_, by omega, rfl⟩
  | ldd a =>
    by_cases ha : a < s.params.n
    · by_cases hq : Memory.read s.mem a < 0 ∨ (s.params.n : Int) ≤ Memory.read s.mem a
      · exact .inr ⟨_, .inr ⟨ha, hq, rfl⟩⟩
      · obtain ⟨hq0, hqn⟩ := not_or.1 hq
        exact .inl ⟨_, ha, (Memory.read s.mem a).toNat, (Int.toNat_of_nonneg (by omega)).symm, by omega, rfl⟩
    · exact .inr ⟨_, .inl ⟨by omega, rfl⟩⟩
  | lda a =>
    by_cases ha : a < s.params.n
    · exact .inl ⟨_, ha, rfl⟩
    · exact .inr ⟨_, by omega, rfl⟩
  | bra a => exact .inl ⟨_, rfl⟩
  | brz a => exact .inl ⟨_, rfl⟩
  | brp a => exact .inl ⟨_, rfl⟩
  | inp =>
    cases hi : s.input[s.inPos]? with
    | none => exact .inl ⟨_, .inr ⟨hi, rfl⟩⟩
    | some v =>
      by_cases hv : InWord v
      · exact .inl ⟨_, .inl ⟨v, hi, hv, rfl⟩⟩
      · exact .inr ⟨_, v, hi, hv, rfl⟩
  | out => exact .inl ⟨_, rfl⟩
  | prt => exact .inl ⟨_, rfl⟩
  | unassigned sel =>
    cases hf : s.params.invalidOpcodeFatal with
    | false => exact .inl ⟨_, hf, rfl⟩
    | true => exact .inr ⟨_, hf, rfl⟩

/-- The inversion lemma: a state that an instruction answers is its effect, or the taking of an error it raises. -/
theorem exec_cases {i : Instr} {s t : State} (h : exec i s = .next t) :
    Effect i s t ∨ ∃ r, RaisesError i s r ∧ t = s.incPc.takeError s.pc r := by
  rcases effect_or_raises i s with ⟨u, hu⟩ | ⟨r, hr⟩
  · rw [exec_eq_of_effect hu] at h
    injection h with h
    exact .inl (h ▸ hu)
  · rw [exec_eq_of_raises hr] at h
    injection h with h
    exact .inr ⟨r, hr, h.symm⟩

/-! The CPU's step. -/

/-- Every way a step of the CPU can end. -/
theorem cpuStep_cases (s : State) :
    (s.params.n ≤ s.pc ∧ cpuStep s = .next (s.takeError s.pc ⟨.memoryOverflow, s.pc⟩)) ∨
    (∃ i, s.pc < s.params.n ∧ decode (Memory.read s.mem s.pc) = .instr i ∧ cpuStep s = exec i s) ∨
    (s.pc < s.params.n ∧ InWord (Memory.read s.mem s.pc) ∧ Memory.read s.mem s.pc < 0 ∧
      cpuStep s = .next (s.takeError s.pc ⟨.invalidInstructionWord, Memory.read s.mem s.pc⟩)) ∨
    (s.pc < s.params.n ∧ ¬ InWord (Memory.read s.mem s.pc) ∧
      cpuStep s = .fault (.cellHoldsNoWord (Memory.read s.mem s.pc))) := by
  rcases fetch_cases s with ⟨h, hf⟩ | ⟨h, hf⟩
  · exact .inl ⟨h, by rw [cpuStep, hf]⟩
  · right
    rcases decode_cases (Memory.read s.mem s.pc) with ⟨-, -, hd⟩ | ⟨hw, hn, hd⟩ | ⟨hw, hd⟩
    · exact .inl ⟨_, h, hd, by rw [cpuStep, hf, fetchedOf, hd]⟩
    · exact .inr (.inl ⟨h, hw, hn, by rw [cpuStep, hf, fetchedOf, hd]⟩)
    · exact .inr (.inr ⟨h, hw, by rw [cpuStep, hf, fetchedOf, hd]⟩)

/-- Every way a step of the machine can have a next state, by phase. -/
theorem step_cases {s t : State} (h : step s = .next t) :
    s.params.ok ∧
    (s.phase = .source ∧ t = prepareStep s ∨ s.phase = .pass1 ∧ t = pass1Step s ∨
     s.phase = .pass2 ∧ t = pass2Step s ∨ s.phase = .assembled ∧ t = cpuReset s ∨
     s.phase = .execution ∧ s.run = .running ∧ cpuStep s = .next t) := by
  rw [step] at h
  by_cases hp : s.params.ok
  · refine ⟨hp, ?_⟩
    rw [if_neg (not_not.2 hp)] at h
    cases hph : s.phase <;> rw [hph] at h
    case source => injection h with h; exact .inl ⟨rfl, h.symm⟩
    case pass1 => injection h with h; exact .inr (.inl ⟨rfl, h.symm⟩)
    case pass2 => injection h with h; exact .inr (.inr (.inl ⟨rfl, h.symm⟩))
    case assembled => injection h with h; exact .inr (.inr (.inr (.inl ⟨rfl, h.symm⟩)))
    case execution =>
      refine .inr (.inr (.inr (.inr ⟨rfl, ?_⟩)))
      change executionStep s = _ at h
      cases hr : s.run
      · rw [executionStep, hr] at h; exact ⟨rfl, h⟩
      · rw [executionStep, hr] at h; cases h
    case failed e => cases h
  · rw [if_pos hp] at h
    cases h

end Sys2Proof.Machine
end

