-- ==== Sys2Proof/Laws/HostView.lean ====
section
/-! SUPPORT. What the host reads after the run, said once. -/

namespace Sys2Proof.Machine

theorem afterHalt_of_halted {α : Type} {s : State} {x : α} (hp : s.phase = .execution) (hr : s.run = .halted) :
    afterHalt s x = some x := by rw [afterHalt, hp, hr]

theorem afterHalt_of_running {α : Type} {s : State} {x : α} (hr : s.run = .running) : afterHalt s x = none := by
  rw [afterHalt, hr]
  cases s.phase <;> rfl

theorem afterHalt_of_not_execution {α : Type} {s : State} {x : α} (hp : s.phase ≠ .execution) :
    afterHalt s x = none := by
  rw [afterHalt]
  cases h : s.phase <;> first | rfl | exact absurd h hp

/-- The host reads the value itself, and only once the run has halted. -/
theorem afterHalt_eq_some {α : Type} {s : State} {x y : α} :
    afterHalt s x = some y ↔ s.phase = .execution ∧ s.run = .halted ∧ y = x := by
  by_cases hp : s.phase = .execution
  · cases hr : s.run
    · simp [afterHalt_of_running hr]
    · simp [afterHalt_of_halted hp hr, hp, eq_comm]
  · simp [afterHalt_of_not_execution hp, hp]

end Sys2Proof.Machine
end

