-- ==== Sys2Proof/Laws/PerInstr.lean ====
section
/-! SUPPORT. One family of facts about each instruction as syntax: a well-formed instruction encodes to a word from 0 to
999 (R50, R58). -/

namespace Sys2Proof.Laws.EncodedWord

/-- A well-formed instruction's word lies in 0 to 999 (R50). -/
def Statement (i : Instr) : Prop := i.wf = true → 0 ≤ encode i ∧ encode i ≤ 999

/-- An operand field of two digits added to an opcode base of at most 900 gives such a word. -/
theorem of_operand {i : Instr} (hb : opcodeBase i ≤ 900) (ha : i.wf = true → operandField i ≤ 99) : Statement i := by
  intro h
  have := ha h
  rw [encode]
  omega

theorem hlt (a : Nat) : Statement (.hlt a) := of_operand (by simp [opcodeBase]) of_decide_eq_true
theorem add (a : Nat) : Statement (.add a) := of_operand (by simp [opcodeBase]) of_decide_eq_true
theorem sub (a : Nat) : Statement (.sub a) := of_operand (by simp [opcodeBase]) of_decide_eq_true
theorem sta (a : Nat) : Statement (.sta a) := of_operand (by simp [opcodeBase]) of_decide_eq_true
theorem ldd (a : Nat) : Statement (.ldd a) := of_operand (by simp [opcodeBase]) of_decide_eq_true
theorem lda (a : Nat) : Statement (.lda a) := of_operand (by simp [opcodeBase]) of_decide_eq_true
theorem bra (a : Nat) : Statement (.bra a) := of_operand (by simp [opcodeBase]) of_decide_eq_true
theorem brz (a : Nat) : Statement (.brz a) := of_operand (by simp [opcodeBase]) of_decide_eq_true
theorem brp (a : Nat) : Statement (.brp a) := of_operand (by simp [opcodeBase]) of_decide_eq_true
theorem inp : Statement .inp := fun _ => by decide
theorem out : Statement .out := fun _ => by decide
theorem prt : Statement .prt := fun _ => by decide
theorem unassigned (sel : Nat) : Statement (.unassigned sel) :=
  of_operand (by simp [opcodeBase]) fun h => (of_decide_eq_true h).1

end Sys2Proof.Laws.EncodedWord
end

