-- ==== Sys2Proof/Laws/Run.lean ====
section
/-! SUPPORT. Several steps of the machine, one at a time. -/

namespace Sys2Proof.Machine

theorem coreRun_of_next (M : Host.Core) {k : Nat} {s t : M.State} (h : M.step s = .next t) :
    M.run (k + 1) s = M.run k t := by
  rw [Host.Core.run, h]

theorem coreRun_of_fault (M : Host.Core) {k : Nat} {s : M.State} {r : M.Fault} (h : M.step s = .fault r) :
    M.run (k + 1) s = .fault r := by
  rw [Host.Core.run, h]

theorem coreRun_of_refused (M : Host.Core) {k : Nat} {s : M.State} {r : M.Refusal} (h : M.step s = .refused r) :
    M.run (k + 1) s = .refused r := by
  rw [Host.Core.run, h]

theorem run_zero (s : State) : core.run 0 s = .next s := rfl

theorem run_of_next {k : Nat} {s t : State} (h : step s = .next t) : core.run (k + 1) s = core.run k t :=
  coreRun_of_next core h

theorem run_of_fault {k : Nat} {s : State} {r : Fault} (h : step s = .fault r) : core.run (k + 1) s = .fault r :=
  coreRun_of_fault core h

theorem run_of_refused {k : Nat} {s : State} {r : Refusal} (h : step s = .refused r) :
    core.run (k + 1) s = .refused r :=
  coreRun_of_refused core h

end Sys2Proof.Machine
end

