-- ==== Sys2Proof/Tests/Slice0.lean ====
section
/-! SUPPORT. The model's own tests. Expected results come from spec/95_test_vectors.md and the rules named at each test;
the witnesses show that the statements' hypotheses can be met together. -/

namespace Sys2Proof.Tests

open Sys2Proof.Machine Sys2Proof.Claims

/-- A CPU in its run: the rest as CPU reset leaves it (R32). -/
def cpu (acc : Int) (pc : Nat) (mem : Memory) : State :=
  { State.reset with phase := .execution, acc := acc, pc := pc, mem := mem, asm := AsmRegs.discarded }

/-- What `f` reads from the state after one step, if there is one. -/
def after {α : Type} (s : State) (f : State → α) : Option α :=
  match step s with
  | .next t => some (f t)
  | .fault _ => none
  | .refused _ => none

/-- The image's first `k` words, or the error. -/
def image (k : Nat) (src : String) : Except AsmError (List Int) :=
  (assemble Config.hardware (some src.toList)).map (Memory.cells k)

/-- The assembly answers the error `kind` on line `line`. -/
def failsWith (src : String) (kind : AsmErrorKind) (line : Nat) : Prop :=
  image 1 src = .error { kind := kind, info := some line }

/-- The assembly answers an image that begins with `ws`. -/
def gives (src : String) (ws : List Int) : Prop := image ws.length src = .ok ws

theorem cpu_running {acc : Int} {pc : Nat} {mem : Memory} (h : pc < 100) : Running (cpu acc pc mem) :=
  ⟨show Config.hardware.ok by decide, rfl, rfl, h⟩

/-! Well-formedness: each check refuses an ill-formed term (R50, R53, R55). -/

theorem test_wf_refuses_wide_operand :
    ([.hlt 100, .add 100, .sub 100, .sta 100, .ldd 100, .lda 100, .bra 100, .brz 100, .brp 100] : List Instr).all
      (fun i => !i.wf) = true := by decide
theorem test_wf_refuses_assigned_selector :
    ([.unassigned 1, .unassigned 2, .unassigned 3, .unassigned 100] : List Instr).all (fun i => !i.wf) = true := by decide
theorem test_wf_accepts_bounds :
    ([.hlt 99, .add 0, .inp, .out, .prt, .unassigned 0, .unassigned 4, .unassigned 99] : List Instr).all Instr.wf = true := by
  decide

/-! Decoding: words written out from R54 (95_test_vectors.md 1.2). -/

theorem test_decode_hlt : decode 0 = .instr (.hlt 0) ∧ decode 99 = .instr (.hlt 99) := by decide
theorem test_decode_add : decode 100 = .instr (.add 0) ∧ decode 199 = .instr (.add 99) := by decide
theorem test_decode_sub : decode 206 = .instr (.sub 6) := by decide
theorem test_decode_sta : decode 399 = .instr (.sta 99) := by decide
theorem test_decode_ldd : decode 403 = .instr (.ldd 3) := by decide
theorem test_decode_lda : decode 599 = .instr (.lda 99) := by decide
theorem test_decode_bra : decode 602 = .instr (.bra 2) := by decide
theorem test_decode_brz : decode 705 = .instr (.brz 5) := by decide
theorem test_decode_brp : decode 806 = .instr (.brp 6) := by decide
theorem test_decode_inp : decode 901 = .instr .inp := by decide
theorem test_decode_out : decode 902 = .instr .out := by decide
theorem test_decode_prt : decode 903 = .instr .prt := by decide
theorem test_decode_unassigned : decode 900 = .instr (.unassigned 0) ∧ decode 911 = .instr (.unassigned 11) ∧
    decode 999 = .instr (.unassigned 99) := by decide
theorem test_decode_negative : decode (-5) = .invalidWord (-5) ∧ decode (-999) = .invalidWord (-999) := by decide
theorem test_decode_no_word : decode 1000 = .noWord 1000 ∧ decode (-1000) = .noWord (-1000) := by decide
theorem test_table_word : decodeTableWord 8 901 = some .inp ∧ decodeTableWord 16 1000 = none := by decide

/-! One step (95_test_vectors.md 2.4 to 2.9). -/

theorem test_add : after (cpu 5 0 [(0, 110), (10, 7)]) (fun t => (t.acc, t.pc)) = some (12, 1) := by decide
theorem test_add_overflow : after (cpu 999 0 [(0, 111), (11, 1)]) (fun t => (t.acc, t.pc, t.run, t.status)) =
    some (999, 1, .halted, .error .accumulatorOverflow 0 (some 1000)) := by decide
theorem test_sub : after (cpu 3 3 [(3, 206), (6, 1)]) (fun t => (t.acc, t.pc)) = some (2, 4) := by decide
theorem test_sub_overflow : after (cpu (-1) 0 [(0, 211), (11, 999)]) (fun t => (t.acc, t.status)) =
    some (-1, .error .accumulatorOverflow 0 (some (-1000))) := by decide
theorem test_sta : after (cpu (-42) 0 [(0, 350)]) (fun t => (Memory.read t.mem 50, t.acc, t.pc)) = some (-42, -42, 1) := by
  decide
theorem test_sta_own_cell : after (cpu 9 0 [(0, 300)]) (fun t => (t.mem, t.pc)) = some ([(0, 9)], 1) := by decide
theorem test_ldd : after (cpu 0 0 [(0, 403), (3, 4), (4, 42)]) (fun t => (t.acc, t.pc)) = some (42, 1) := by decide
theorem test_ldd_pointer_out_of_range : after (cpu 8 0 [(0, 403), (3, 503)]) (fun t => (t.acc, t.pc, t.status)) =
    some (8, 1, .error .addressOutOfRange 0 (some 503)) := by decide
theorem test_lda : after (cpu 0 2 [(2, 599), (99, 7)]) (fun t => (t.acc, t.pc)) = some (7, 3) := by decide
theorem test_lda_unwritten : after (cpu 6 0 [(0, 550)]) (fun t => t.acc) = some 0 := by decide
theorem test_hlt : after (cpu 3 0 [(0, 42)]) (fun t => (t.run, t.status, t.pc, t.acc)) = some (.halted, .ok, 1, 3) := by
  decide
theorem test_hlt_at_last_cell : after (cpu 0 99 []) (fun t => (t.run, t.status, t.pc)) = some (.halted, .ok, 100) := by
  decide
theorem test_bra : after (cpu 0 4 [(4, 601)]) (fun t => t.pc) = some 1 := by decide
theorem test_bra_at_last_cell : after (cpu 0 99 [(99, 605)]) (fun t => (t.pc, t.run)) = some (5, .running) := by decide
theorem test_brz_taken : after (cpu 0 1 [(1, 705)]) (fun t => t.pc) = some 5 := by decide
theorem test_brz_not_taken : after (cpu (-1) 1 [(1, 705)]) (fun t => t.pc) = some 2 := by decide
theorem test_brp_taken : after (cpu 1 4 [(4, 806)]) (fun t => t.pc) = some 6 := by decide
theorem test_brp_not_on_zero : after (cpu 0 4 [(4, 806)]) (fun t => t.pc) = some 5 := by decide
theorem test_inp : after { cpu 5 0 [(0, 901)] with input := [7] } (fun t => (t.acc, t.inPos, t.pc)) = some (7, 1, 1) := by
  decide
theorem test_inp_exhausted : after { cpu 5 0 [(0, 901)] with input := [7], inPos := 1 }
    (fun t => (t.acc, t.inPos, t.run)) = some (0, 1, .running) := by decide
theorem test_out : after { cpu (-4) 0 [(0, 902)] with out := [.num 1] } (fun t => (t.out, t.acc)) =
    some ([.num 1, .num (-4)], -4) := by decide
theorem test_prt : after (cpu 65 1 [(1, 903)]) (fun t => (t.out, t.acc, t.pc)) = some ([.chr 65], 65, 2) := by decide
theorem test_prt_negative : after (cpu (-1) 0 [(0, 903)]) (fun t => (t.out, t.status)) = some ([.chr (-1)], .none) := by
  decide
theorem test_unassigned : step (cpu 4 0 [(0, 950)]) = .next (cpu 4 1 [(0, 950)]) := rfl
theorem test_unassigned_fatal :
    after { cpu 4 0 [(0, 950)] with params := { n := 100, symtabCap := 256, invalidOpcodeFatal := true } }
      (fun t => (t.pc, t.status)) = some (1, .error .invalidOpcode 0 (some 950)) := by decide
theorem test_negative_word : after (cpu 0 0 [(0, -5)]) (fun t => (t.pc, t.status)) =
    some (0, .error .invalidInstructionWord 0 (some (-5))) := by decide
theorem test_fetch_past_end : after (cpu 0 100 []) (fun t => (t.pc, t.status)) =
    some (100, .error .memoryOverflow 100 (some 100)) := by decide
theorem test_halted_has_no_step : step { cpu 0 0 [] with run := .halted, status := .ok } = .fault .halted := rfl
theorem test_input_out_of_range : after { cpu 3 0 [(0, 901)] with input := [1000] }
    (fun t => (t.acc, t.inPos, t.status)) = some (3, 0, .error .inputOutOfRange 0 (some 1000)) := by decide
theorem test_placed_word_runs_first : after (State.reset.withFetchWord 10 903) (fun t => (t.out, t.pc)) =
    some ([.chr 0], 1) := by decide

/-! The lexer (95_test_vectors.md 2.1). -/

theorem test_tokens : tokens "  LOOP\tADD  ONE ".toList = ["LOOP".toList, "ADD".toList, "ONE".toList] := by decide
theorem test_tokens_blank : tokens "\t \t".toList = [] ∧ tokens "ADD,5".toList = ["ADD,5".toList] := by decide
theorem test_lines : (lines "INP\nOUT\n".toList).length = 2 ∧
    lines "INP\n\nOUT".toList = ["INP".toList, [], "OUT".toList] := by decide
theorem test_literals : intLiteral "007".toList = some 7 ∧ intLiteral "+12".toList = some 12 ∧
    intLiteral "-0".toList = some 0 ∧ intLiteral "12abc".toList = none ∧ intLiteral "-".toList = none := by decide

/-! The assembler (95_test_vectors.md 1.4, 2.1, 2.3). -/

theorem test_source_not_found : assemble Config.hardware none = .error { kind := .sourceNotFound, info := none } := rfl
theorem test_unsupported_whitespace : failsWith "HLT\nOUT\x0cX" .unsupportedWhitespace 1 := by unfold failsWith; decide
theorem test_scenario_a : gives "INP\nSTA 99\nLDA 99\nOUT\nHLT" [901, 399, 599, 902, 0] := by unfold gives; decide
theorem test_forward_reference : gives "BRA LOOP\nHLT\nLOOP DAT" [602, 0, 0] := by unfold gives; decide
theorem test_carry : gives "ADD 150" [250] ∧ gives "LDA -1" [499] := by unfold gives; decide
theorem test_ignored_operand : gives "HLT 999999\nINP 5" [0, 901] := by unfold gives; decide
theorem test_ignored_operand_is_resolved : failsWith "OUT FOO" .undefinedSymbol 0 := by unfold failsWith; decide
theorem test_word_out_of_range : failsWith "LDA 500" .wordOutOfRange 0 := by unfold failsWith; decide
theorem test_missing_operand : failsWith "ADD" .missingOperand 0 := by unfold failsWith; decide
theorem test_expected_mnemonic : failsWith "add 5" .expectedMnemonic 0 := by unfold failsWith; decide
theorem test_too_many_tokens : failsWith "BRA DAT 5" .tooManyTokens 0 ∧ failsWith "L ADD 1 2" .tooManyTokens 0 := by
  unfold failsWith; decide
theorem test_label_reused_as_operand : gives "X\nX ADD X" [0, 100] := by unfold gives; decide
theorem test_first_declaration_wins : gives "X DAT 1\nX DAT 2\nLDA X" [1, 2, 500] := by unfold gives; decide
theorem test_label_shadows_literal : gives "7 DAT 3\nLDA 7" [3, 500] := by unfold gives; decide

/-! The host (95_test_vectors.md 2.7). -/

theorem test_render : render [.num 3, .num (-4), .num 0, .chr 72] = "3-40H".toList := by decide
theorem test_host_reads_output_after_the_run :
    hostText { cpu 7 5 [] with out := [.num 7] } = none ∧
    hostText { cpu 7 5 [] with out := [.num 7], run := .halted, status := .ok } = some "7".toList := by decide
theorem test_completion_status : completionStatus { cpu 0 1 [] with run := .halted, status := .ok } = some 0 ∧
    completionStatus (State.reset.failAssembly { kind := .memoryOverflow, info := some 100 }) = some 3 := by decide

/-! Witnesses: for each statement with hypotheses, concrete values that meet them, clause by clause. -/

/-- A legal state in which the run goes on. -/
theorem cpu_legal : Inv (cpu 0 0 [(0, 950)]) :=
  { params := show Config.hardware.ok by decide
    memory := ⟨rfl, rfl⟩
    registers := ⟨by decide, by decide, by decide, fun _ h => absurd h List.not_mem_nil⟩
    status := by unfold StatusLegal; decide
    run := fun h => absurd rfl h
    symtab := ⟨by decide, List.nodup_nil, fun _ h => absurd h List.not_mem_nil, by decide⟩
    source := by unfold SourceLegal; decide }

/-- A halted CPU. -/
def halted : State := { cpu 0 1 [] with run := .halted, status := .ok }

/-- A legal state in which the run has halted. -/
theorem halted_legal : Inv halted :=
  { params := show Config.hardware.ok by decide
    memory := ⟨rfl, rfl⟩
    registers := ⟨by decide, by decide, by decide, fun _ h => absurd h List.not_mem_nil⟩
    status := by unfold StatusLegal; decide
    run := fun h => absurd rfl h
    symtab := ⟨by decide, List.nodup_nil, fun _ h => absurd h List.not_mem_nil, by decide⟩
    source := by unfold SourceLegal; decide }

/-- The premises of `RunsAs` at the word `w`. -/
theorem witness_runsAs (w : Int) : Running (cpu 0 0 [(0, w)]) ∧ Memory.read (cpu 0 0 [(0, w)]).mem 0 = w :=
  ⟨cpu_running (by decide), rfl⟩

theorem witness_HaltStopsTheRun :
    99 ≤ 99 ∧ ∃ t, exec (.hlt 5) (cpu 0 0 []) = .next t ∧ t.status = .ok := ⟨by decide, _, rfl, rfl⟩
theorem witness_AddGivesExactSumOrError :
    (99 < (cpu 998 0 [(99, 1)]).params.n ∧ InWord (998 + Memory.read [(99, 1)] 99)) ∧
    (99 < (cpu 999 0 [(99, 1)]).params.n ∧ ¬ InWord (999 + Memory.read [(99, 1)] 99)) ∧
    (cpu 0 0 []).params.n ≤ 100 := by decide
theorem witness_SubGivesExactDifferenceOrError :
    (99 < (cpu (-998) 0 [(99, 1)]).params.n ∧ InWord (-998 - Memory.read [(99, 1)] 99)) ∧
    (99 < (cpu (-999) 0 [(99, 1)]).params.n ∧ ¬ InWord (-999 - Memory.read [(99, 1)] 99)) ∧
    (cpu 0 0 []).params.n ≤ 100 := by decide
theorem witness_StaStoresAccumulatorAtOperand :
    (99 < (cpu 7 0 [(0, 399)]).params.n ∧ Memory.wf (cpu 7 0 [(0, 399)]).mem = true ∧ ((98 : Nat) : Int) ≠ directAddress 99) ∧
    (cpu 0 0 []).params.n ≤ 100 := by decide
theorem witness_LddLoadsThroughWholePointer :
    (3 < (cpu 0 0 [(3, 99)]).params.n ∧ Memory.read [(3, 99)] 3 = ((99 : Nat) : Int) ∧ 99 < (cpu 0 0 []).params.n) ∧
    Memory.read [(3, -1)] 3 < 0 ∧ ((cpu 0 0 []).params.n : Int) ≤ Memory.read [(3, 100)] 3 ∧
    (cpu 0 0 []).params.n ≤ 100 := by decide
theorem witness_LdaLoadsTheCell : 99 < (cpu 0 0 []).params.n ∧ (cpu 0 0 []).params.n ≤ 100 := by decide
theorem witness_BrzBranchesExactlyOnZero : (cpu 0 0 []).acc = 0 ∧ (cpu (-1) 0 []).acc ≠ 0 := by decide
theorem witness_BrpBranchesOnlyOnStrictlyPositive : 0 < (cpu 1 0 []).acc ∧ (cpu 0 0 []).acc ≤ 0 := by decide
theorem witness_InpReadsNextValueOrZero :
    (([999] : List Int)[0]? = some 999 ∧ InWord 999) ∧ (([1000] : List Int)[0]? = some 1000 ∧ ¬ InWord 1000) ∧
    ([7] : List Int).length ≤ 1 := by decide
theorem witness_UnassignedWordIsNoOpUnlessFatal :
    UnassignedSelector 0 ∧ UnassignedSelector 4 ∧ UnassignedSelector 99 ∧
    (cpu 0 0 []).params.invalidOpcodeFatal = false ∧
    ({ Config.hardware with invalidOpcodeFatal := true } : Params).invalidOpcodeFatal = true := by decide
theorem witness_OnlyStaWritesMemoryAndOnlyItsCell :
    (∃ t, exec .out (cpu 0 0 []) = .next t) ∧ (∀ a, Instr.out ≠ .sta a) ∧ ∃ t, exec (.sta 0) (cpu 0 0 []) = .next t :=
  ⟨⟨_, rfl⟩, fun _ => nofun, _, rfl⟩
theorem witness_InstructionsChangeOnlyTheirRegisters :
    writesAcc (.bra 0) = false ∧ Instr.bra 0 ≠ .inp ∧ Instr.bra 0 ≠ .out ∧ Instr.bra 0 ≠ .prt ∧
    ∃ t, exec (.bra 0) (cpu 0 0 []) = .next t := ⟨rfl, by decide, by decide, by decide, _, rfl⟩
theorem witness_OtherInstructionsDoNotReadAccumulator :
    readsAcc (.lda 0) = false ∧ ∃ t, exec (.lda 0) (cpu 0 0 []) = .next t := ⟨rfl, _, rfl⟩
theorem witness_ProgramCounterFollowsTable :
    (∃ t, exec (.brz 99) (cpu 0 99 []) = .next t) ∧ (Instr.brz 99).wf = true ∧ (cpu 0 99 []).pc < 100 ∧
    (∀ a, Instr.out ≠ .bra a) ∧ (∀ a, Instr.out ≠ .brz a) ∧ (∀ a, Instr.out ≠ .brp a) :=
  ⟨⟨_, rfl⟩, rfl, by decide, fun _ => nofun, fun _ => nofun, fun _ => nofun⟩
theorem witness_OutputSinkIsAppendOnly :
    (cpu 0 0 [(0, 902)]).phase = .execution ∧ (∃ t, step (cpu 0 0 [(0, 902)]) = .next t) ∧
    ∃ t, exec .out (cpu 0 0 []) = .next t := ⟨rfl, ⟨_, rfl⟩, _, rfl⟩
theorem witness_InputCursorAdvancesOncePerConsumedValue :
    Instr.out ≠ .inp ∧ (∃ t, exec .out (cpu 0 0 []) = .next t) ∧
    (∃ t, (cpu 0 0 []).inPos ≤ (cpu 0 0 []).input.length ∧ exec .inp (cpu 0 0 []) = .next t) ∧
    ∃ t, ({ cpu 0 0 [] with input := [7] } : State).inPos ≤ ({ cpu 0 0 [] with input := [7] } : State).input.length ∧
      exec .inp { cpu 0 0 [] with input := [7] } = .next t ∧ t.inPos = 1 ∧ t.acc = 7 :=
  ⟨by decide, ⟨_, rfl⟩, ⟨_, by decide, rfl⟩, _, by decide, rfl, rfl, rfl⟩
theorem witness_OnlyLddCanRaiseAddressOutOfRange :
    (Instr.ldd 3).wf = true ∧ (cpu 0 0 [(3, 100)]).params.n = 100 ∧ (cpu 0 0 [(3, 100)]).status = .none ∧
    ∃ t, exec (.ldd 3) (cpu 0 0 [(3, 100)]) = .next t ∧ t.status = .error .addressOutOfRange 0 (some 100) :=
  ⟨rfl, rfl, rfl, _, rfl, rfl⟩

theorem witness_StepRunsTheDecodedInstruction :
    Running (cpu 0 99 [(99, 199)]) ∧ decode (Memory.read (cpu 0 99 [(99, 199)]).mem 99) = .instr (.add 99) :=
  ⟨cpu_running (by decide), by decide⟩
theorem witness_FetchPastTheEndRaisesMemoryOverflow :
    (cpu 0 100 []).params.ok ∧ (cpu 0 100 []).phase = .execution ∧ (cpu 0 100 []).run = .running ∧
    (cpu 0 100 []).params.n ≤ (cpu 0 100 []).pc := by decide
theorem witness_NegativeWordRaisesInvalidInstructionWord :
    Running (cpu 0 0 [(0, -1)]) ∧ Memory.read (cpu 0 0 [(0, -1)]).mem 0 = -1 ∧ (-999 : Int) ≤ -1 :=
  ⟨cpu_running (by decide), rfl, by decide⟩
theorem witness_HaltedCpuHasNoStep : halted.params.ok ∧ halted.phase = .execution ∧ halted.run = .halted := by decide
theorem witness_ErrorsArePrecise :
    (cpu 999 0 [(0, 100)]).phase = .execution ∧ (cpu 999 0 [(0, 100)]).status = .none ∧
    ∃ t, step (cpu 999 0 [(0, 100)]) = .next t ∧ t.status = .error .accumulatorOverflow 0 (some 1099) :=
  ⟨rfl, rfl, _, rfl, rfl⟩
theorem witness_StatusIsSetOnceWhenTheRunHalts :
    (cpu 0 0 []).phase = .execution ∧ StatusLegal (cpu 0 0 []) ∧ ∃ t, step (cpu 0 0 []) = .next t :=
  ⟨rfl, by unfold StatusLegal; decide, _, rfl⟩
theorem witness_MachineStopsOnlyAtItsEnds : Inv (cpu 0 0 [(0, 950)]) ∧ Inv halted := ⟨cpu_legal, halted_legal⟩
theorem witness_BranchToItselfLoopsForever :
    Running (cpu 0 7 [(7, 607)]) ∧ Memory.read (cpu 0 7 [(7, 607)]).mem 7 = 600 + ((7 : Nat) : Int) :=
  ⟨cpu_running (by decide), by decide⟩
theorem witness_DecodeOfEncodeIsIdentity : (Instr.brp 99).wf = true ∧ (Instr.unassigned 4).wf = true := by decide
theorem witness_EveryWordHasOneDecoding :
    ((0 : Int) ≤ 999 ∧ (999 : Int) ≤ 999) ∧ ((-999 : Int) ≤ -999 ∧ (-999 : Int) ≤ -1) ∧ ((-1000 : Int) < -999 ∧ (999 : Int) < 1000) := by
  decide
theorem witness_OpcodeMapFollowsTheTable : 99 ≤ 99 ∧ 4 ≤ 4 ∧ 4 ≤ 99 := by decide
theorem witness_PlacedWordIsTheNextInstruction :
    State.reset.params.ok ∧ Memory.wf State.reset.mem = true ∧ decodeTableWord 10 901 = some .inp := by decide
theorem witness_StoredValueIsLoadedBack :
    Memory.wf (cpu 9 0 [(3, 99)]).mem = true ∧ 99 < (cpu 9 0 [(3, 99)]).params.n ∧ 3 < (cpu 9 0 [(3, 99)]).params.n ∧
    ∃ t u, exec (.sta 99) (cpu 9 0 [(3, 99)]) = .next t ∧ (∀ i ∈ [Instr.out], i ≠ .sta 99) ∧
      execAll [.out] t = .next u ∧ Memory.read u.mem 3 = ((99 : Nat) : Int) :=
  ⟨rfl, by decide, by decide, _, _, rfl, by decide, rfl, rfl⟩
theorem witness_StoredWordIsFetchedByTheNextStep :
    Running (cpu 902 98 [(98, 399)]) ∧ Memory.wf (cpu 902 98 [(98, 399)]).mem = true ∧
    98 + 1 < (cpu 902 98 [(98, 399)]).params.n ∧
    Memory.read (cpu 902 98 [(98, 399)]).mem 98 = 300 + ((98 + 1 : Nat) : Int) ∧ decode 902 = .instr .out :=
  ⟨cpu_running (by decide), rfl, by decide, by decide, by decide⟩
theorem witness_ResetIsLegal : ({ n := 1, symtabCap := 13, invalidOpcodeFatal := true } : Params).ok := by decide
theorem witness_EveryStepKeepsStatesLegal :
    Inv (cpu 0 0 [(0, 950)]) ∧ ∃ t, step (cpu 0 0 [(0, 950)]) = .next t := ⟨cpu_legal, _, rfl⟩
theorem witness_CpuResetStartsTheRunOnTheImage :
    ({ State.reset with phase := .assembled } : State).params.ok ∧
    ({ State.reset with phase := .assembled } : State).phase = .assembled := by decide
theorem witness_PhasesRunInOrderAndOwnTheirState :
    (∃ t, step State.reset = .next t) ∧ State.reset.phase ≠ .assembled ∧ State.reset.phase ≠ .execution ∧
    ∃ t, (cpu 0 0 []).phase = .execution ∧ step (cpu 0 0 []) = .next t := ⟨⟨_, rfl⟩, by decide, by decide, _, rfl, rfl⟩
theorem witness_RunDependsOnlyOnImageAndInput :
    (cpu 0 0 []).phase = .execution ∧ (∃ t, core.run 1 (cpu 0 0 []) = .next t) ∧
    (∃ e, core.run 2 (cpu 0 0 []) = .fault e) ∧
    ∃ e, core.run 1 { cpu 0 0 [] with params := { n := 0, symtabCap := 256, invalidOpcodeFatal := false } } = .refused e :=
  ⟨rfl, ⟨_, rfl⟩, ⟨_, rfl⟩, _, rfl⟩

theorem witness_MachineStepsComputeTheAssembly :
    State.reset.params.ok ∧ State.reset.phase = .source ∧
    assemble Config.hardware (some "PRT".toList) = .ok [(0, 903)] ∧
    assemble Config.hardware State.reset.src = .error { kind := .sourceNotFound, info := none } := by decide

/-- A line of one letter holds no CR, VT or FF. -/
theorem letter_accepted : ∀ c ∈ ['A'], ¬ RefusedWhitespace c := by
  intro c hc
  rw [List.mem_singleton.1 hc]
  unfold RefusedWhitespace
  decide

theorem witness_SourceChecksComeInOrder :
    ((lines "A\n\x0c".toList)[1]? = some ['\x0c'] ∧ RefusedWhitespace '\x0c' ∧
      (lines "A\n\x0c".toList)[0]? = some ['A'] ∧ ∀ c ∈ ['A'], ¬ RefusedWhitespace c) ∧
    (lines "A\nA".toList = [['A'], ['A']] ∧ ∀ l ∈ [['A'], ['A']], ∀ c ∈ l, ¬ RefusedWhitespace c) ∧
    1 < (lines "A\nA".toList).length ∧ (lines "A\nA".toList).length ≤ 2 :=
  ⟨⟨by decide, by unfold RefusedWhitespace; decide, by decide, letter_accepted⟩,
    ⟨by decide, fun _ hl => (List.eq_of_mem_replicate (n := 2) hl) ▸ letter_accepted⟩, by decide, by decide⟩
theorem witness_LinesEndAtLineFeeds : "ADD 5".toList ≠ [] ∧ '\n' ∉ "ADD 5".toList := by decide
theorem witness_TokensAreMaximalRuns :
    (['A'] ≠ [] ∧ ∀ c ∈ ['A'], TokenChar c) ∧ ¬ TokenChar ' ' ∧ ¬ TokenChar '\t' ∧ ['A'] ∈ tokens " A".toList := by
  refine ⟨⟨by decide, fun c hc => ?_⟩, ?_, ?_, by decide⟩
  · rw [List.mem_singleton.1 hc]
    unfold TokenChar
    decide
  all_goals unfold TokenChar; decide
theorem witness_IntegerLiteralsHaveTheirExactValue :
    intLiteral "-07".toList = some (-7) ∧ (['0', '7'] ≠ [] ∧ DigitChar '0' ∧ DigitChar '7') ∧ spelled ['0', '7'] = 7 := by
  unfold DigitChar; decide
theorem witness_PassOneBindsEachLabelToItsFirstLine :
    (∃ r, pass1 Config.hardware ["X DAT".toList] AsmRegs.reset = .ok r) ∧
    (∃ e, lookup "ADD".toList initializeSymtab = some e) ∧ lookup "X".toList initializeSymtab = none :=
  ⟨⟨_, rfl⟩, ⟨_, rfl⟩, rfl⟩
theorem witness_SymbolTableFullIsUnreachableWithinCapacity :
    13 + ["X".toList].length ≤ ({ n := 1, symtabCap := 14, invalidOpcodeFatal := false } : Params).symtabCap ∧
    lookup "X".toList AsmRegs.reset.symtab = none ∧ AsmRegs.reset.slotCount = 0 ∧ AsmRegs.reset.symtab.length = 13 :=
  ⟨by decide, rfl, rfl, rfl⟩

/-- The registers after pass 1 over one line that declares `X`. -/
def withX : AsmRegs :=
  { AsmRegs.reset with symtab := initializeSymtab ++ [{ kind := .label, key := "X".toList, value := 0 }] }

theorem witness_LeadingLabelEmitsNothing :
    (∃ e, lookup "X".toList withX.symtab = some e ∧ e.kind = .label) ∧
    (∃ e', lookup "ADD".toList withX.symtab = some e' ∧ e'.kind = .mnemonic) ∧
    ∀ e', lookup "5".toList withX.symtab = some e' → e'.kind = .label :=
  ⟨⟨_, rfl, rfl⟩, ⟨_, rfl, rfl⟩, fun _ h => nomatch h⟩
theorem witness_LineWithoutOperandEmitsValueOrIsRefused :
    ∃ e, lookup "ADD".toList withX.symtab = some e ∧ e.kind = .mnemonic := ⟨_, rfl, rfl⟩
theorem witness_LineWithOperandAddsItUnlessIgnored :
    (∃ e, lookup "ADD".toList withX.symtab = some e ∧ e.kind = .mnemonic) ∧
    (∃ e', lookup "X".toList withX.symtab = some e') ∧
    (lookup "-5".toList withX.symtab = none ∧ intLiteral "-5".toList = some (-5)) ∧
    lookup "FOO".toList withX.symtab = none ∧ intLiteral "FOO".toList = none :=
  ⟨⟨_, rfl, rfl⟩, ⟨_, rfl⟩, ⟨rfl, by decide⟩, rfl, by decide⟩
theorem witness_TokenAfterOperandIsRefused :
    (∃ e, lookup "ADD".toList withX.symtab = some e ∧ e.kind = .mnemonic) ∧
    lookup "X".toList withX.symtab ≠ none ∧ intLiteral "5".toList ≠ none ∧
    ∃ e', lookup "X".toList withX.symtab = some e' ∧ e'.kind = .label :=
  ⟨⟨_, rfl, rfl⟩, by decide, by decide, _, rfl, rfl⟩
theorem witness_PassTwoWritesEachLineOrReportsTheFirstFailure :
    (∃ res, pass2 ["ADD X".toList] withX [] = .ok res) ∧ ∃ e, pass2 ["ADD".toList] withX [] = .error e :=
  ⟨⟨_, rfl⟩, _, rfl⟩
theorem witness_AssembledLineIsTheEncodedInstruction :
    Config.hardware.ok ∧ (Instr.hlt 99).wf = true ∧ nameOf (.hlt 99) = some "HLT".toList ∧ (Instr.brp 99).wf = true ∧
    nameOf (.brp 99) = some "BRP".toList := by decide
theorem witness_OutOfRangeOperandCarriesIntoTheOpcode :
    "LDA".toList ∈ operandRequired ∧ ("LDA".toList, (500 : Int)) ∈ mnemonicTable ∧ InWord (500 + 499) ∧ ¬ InWord (500 + 500) := by
  decide
theorem witness_RenderingJoinsTheEventsTexts : (0 : Int) ≤ 0 ∧ (-1 : Int) < 0 ∧ (10 ≠ 0) ∧ '0' ∈ decimalDigits 0 ∧ 999 ≤ 999 := by
  decide
theorem witness_CompletionStatusIsNonZeroExactlyOnError :
    Inv halted ∧ completionStatus halted = some 0 ∧ halted.phase = .execution ∧ halted.run = .halted ∧
    halted.status = .ok := ⟨halted_legal, rfl, rfl, rfl, rfl⟩

theorem witness_HostActsOnlyAtItsTimes :
    ((cpu 0 0 []).phase = .execution ∧ (cpu 0 0 []).run = .running) ∧
    (Inv halted ∧ halted.phase = .execution ∧ hostText halted = some []) ∧
    Inv (cpu 0 0 [(0, 950)]) ∧ (cpu 0 0 [(0, 950)]).phase = .execution ∧
    supplySource none State.reset = some State.reset ∧
    (∃ t, supplyInput [7] { State.reset with phase := .assembled } = some t) ∧
    (∃ d, debugDump { State.reset with phase := .assembled } = some d) ∧
    ∃ r, assemblyResult (State.reset.failAssembly { kind := .sourceNotFound, info := none }) = some r :=
  ⟨⟨rfl, rfl⟩, ⟨halted_legal, rfl, rfl⟩, cpu_legal, rfl, rfl, ⟨_, rfl⟩, ⟨_, rfl⟩, _, rfl⟩

end Sys2Proof.Tests
end

section
/-! PROOFS. The statements about the state (10_state.md): what an instruction can do to each register, said once; the
frames and the program counter; the output sink and the input cursor; the values at the two resets; and that every step
keeps a state legal. -/

namespace Sys2Proof.Proofs

open Sys2Proof.Machine Sys2Proof.Claims

theorem inWord_zero : InWord 0 := by decide

/-! ### The registers after an instruction -/

/-- The update that an instruction makes once the pc has moved on (R96, R130), by the registers it writes. -/
inductive Update (i : Instr) (s : State) : State → Prop
  | halts {a : Nat} (hi : i = .hlt a) : Update i s (s.incPc.halt .ok)
  | setsAcc {v : Int} (hi : writesAcc i = true) (hv : InWord v ∨ ∃ a, v = Memory.read s.mem a) :
      Update i s (s.incPc.setAcc v)
  | consumes {v : Int} (hi : i = .inp) (hin : s.input[s.inPos]? = some v) (hv : InWord v) :
      Update i s (s.incPc.setAcc v).advanceInput
  | stores {a : Nat} (ha : a < s.params.n) : Update i s (s.incPc.setCell a s.acc)
  | branches (a : Nat) : Update i s (s.incPc.setPc a)
  | continues : Update i s s.incPc
  | emits {ev : Event} (hi : i = .out ∨ i = .prt) (hev : ev = .num s.acc ∨ ev = .chr s.acc) :
      Update i s (s.incPc.emit ev)
  | fails (r : Raise) : Update i s (s.incPc.takeError s.pc r)

theorem update_of_effect {i : Instr} {s t : State} (h : Effect i s t) : Update i s t := by
  cases i with
  | hlt a => subst h; exact .halts rfl
  | add a | sub a =>
    obtain ⟨-, hv, rfl⟩ := h
    exact .setsAcc rfl (.inl hv)
  | sta a =>
    obtain ⟨ha, rfl⟩ := h
    exact .stores ha
  | ldd a =>
    obtain ⟨-, q, -, -, rfl⟩ := h
    exact .setsAcc rfl (.inr ⟨q, rfl⟩)
  | lda a =>
    obtain ⟨-, rfl⟩ := h
    exact .setsAcc rfl (.inr ⟨a, rfl⟩)
  | bra a => subst h; exact .branches a
  | brz a | brp a =>
    rw [show t = _ from h]
    split_ifs
    · exact .branches a
    · exact .continues
  | inp =>
    obtain ⟨v, hin, hv, rfl⟩ | ⟨-, rfl⟩ := h
    · exact .consumes rfl hin hv
    · exact .setsAcc rfl (.inl inWord_zero)
  | out => subst h; exact .emits (.inl rfl) (.inl rfl)
  | prt => subst h; exact .emits (.inr rfl) (.inr rfl)
  | unassigned sel =>
    obtain ⟨-, rfl⟩ := h
    exact .continues

theorem update_of_exec {i : Instr} {s t : State} (h : exec i s = .next t) : Update i s t := by
  obtain he | ⟨r, -, rfl⟩ := exec_cases h
  · exact update_of_effect he
  · exact .fails r

section
variable {i : Instr} {s t : State}

theorem Update.frame (h : Update i s t) :
    t.params = s.params ∧ t.phase = s.phase ∧ t.src = s.src ∧ t.input = s.input ∧ t.asm = s.asm := by
  cases h <;> exact ⟨rfl, rfl, rfl, rfl, rfl⟩

/-- The accumulator keeps its value, or an instruction that R16 lists writes a word or a cell's content. -/
theorem Update.acc (h : Update i s t) :
    t.acc = s.acc ∨ writesAcc i = true ∧ (InWord t.acc ∨ ∃ a, t.acc = Memory.read s.mem a) := by
  cases h with
  | setsAcc hi hv => exact .inr ⟨hi, hv⟩
  | consumes hi _ hv => exact .inr ⟨by rw [hi]; rfl, .inl hv⟩
  | halts _ | stores _ | branches _ | continues | emits _ _ | fails _ => exact .inl rfl

theorem Update.mem (h : Update i s t) :
    t.mem = s.mem ∨ ∃ a, a < s.params.n ∧ t.mem = Memory.write s.mem a s.acc := by
  cases h with
  | stores ha => exact .inr ⟨_, ha, rfl⟩
  | halts _ | setsAcc _ _ | consumes _ _ _ | branches _ | continues | emits _ _ | fails _ => exact .inl rfl

/-- The cursor keeps its place, or INP moves it past the value it has put into the accumulator (R22, R121). -/
theorem Update.inPos (h : Update i s t) :
    t.inPos = s.inPos ∨ i = .inp ∧ t.inPos = s.inPos + 1 ∧ s.input[s.inPos]? = some t.acc := by
  cases h with
  | consumes hi hin _ => exact .inr ⟨hi, rfl, hin⟩
  | halts _ | setsAcc _ _ | stores _ | branches _ | continues | emits _ _ | fails _ => exact .inl rfl

/-- The sink keeps its content, or OUT or PRT appends an event that carries the accumulator (R123, R124). -/
theorem Update.out (h : Update i s t) :
    t.out = s.out ∨ (i = .out ∨ i = .prt) ∧ ∃ ev, (ev = .num s.acc ∨ ev = .chr s.acc) ∧ t.out = s.out ++ [ev] := by
  cases h with
  | emits hi hev => exact .inr ⟨hi, _, hev, rfl⟩
  | halts _ | setsAcc _ _ | consumes _ _ _ | stores _ | branches _ | continues | fails _ => exact .inl rfl

/-- The run goes on with its status, or halts with nothing else written: by HLT, or by an error at the fetch address. -/
theorem Update.run (h : Update i s t) :
    (t.run = s.run ∧ t.status = s.status) ∨
    (t.run = .halted ∧ t.acc = s.acc ∧ t.mem = s.mem) ∧
      ((t.status = .ok ∧ ∃ a, i = .hlt a) ∨ ∃ k v, t.status = .error k s.pc (some v)) := by
  cases h with
  | halts hi => exact .inr ⟨⟨rfl, rfl, rfl⟩, .inl ⟨rfl, _, hi⟩⟩
  | fails r => exact .inr ⟨⟨rfl, rfl, rfl⟩, .inr ⟨_, _, rfl⟩⟩
  | setsAcc _ _ | consumes _ _ _ | stores _ | branches _ | continues | emits _ _ => exact .inl ⟨rfl, rfl⟩

end

/-- Settles O15: each register's clause is what `Update` says of it. -/
theorem instructionsChangeOnlyTheirRegisters : Obligations.InstructionsChangeOnlyTheirRegisters := by
  unfold Obligations.InstructionsChangeOnlyTheirRegisters
  intro i s t h
  have hu := update_of_exec h
  refine ⟨fun hw => ?_, fun hi => ?_, fun ho hp => ?_, ?_, hu.frame⟩
  · exact hu.acc.resolve_right fun ⟨hw', _⟩ => by simp [hw] at hw'
  · exact hu.inPos.resolve_right fun ⟨hi', _⟩ => hi hi'
  · exact hu.out.resolve_right fun ⟨hi, _⟩ => hi.elim ho hp
  · exact hu.run.imp_right And.left

/-! ### The program counter -/

/-- The table of R18: the pc after an instruction. -/
def nextPc (i : Instr) (s : State) : Nat :=
  match i with
  | .bra a => a
  | .brz a => if s.acc = 0 then a else s.pc + 1
  | .brp a => if 0 < s.acc then a else s.pc + 1
  | .hlt _ | .add _ | .sub _ | .sta _ | .ldd _ | .lda _ | .inp | .out | .prt | .unassigned _ => s.pc + 1

theorem pc_of_effect {i : Instr} {s t : State} (h : Effect i s t) : t.pc = nextPc i s := by
  cases i with
  | hlt _ | bra _ | out | prt => subst h; rfl
  | add _ | sub _ =>
    obtain ⟨-, -, rfl⟩ := h
    rfl
  | sta _ | lda _ | unassigned _ =>
    obtain ⟨-, rfl⟩ := h
    rfl
  | ldd _ =>
    obtain ⟨-, _, -, -, rfl⟩ := h
    rfl
  | brz _ | brp _ =>
    rw [show t = _ from h, nextPc]
    split_ifs <;> rfl
  | inp => obtain ⟨_, -, -, rfl⟩ | ⟨-, rfl⟩ := h <;> rfl

/-- Branches raise nothing, so an error leaves the pc at p + 1 (R99, R130). -/
theorem nextPc_of_raises {i : Instr} {s : State} {r : Raise} (h : RaisesError i s r) : nextPc i s = s.pc + 1 := by
  cases i with
  | bra _ | brz _ | brp _ => exact h.elim
  | hlt _ | add _ | sub _ | sta _ | ldd _ | lda _ | inp | out | prt | unassigned _ => rfl

theorem exec_pc {i : Instr} {s t : State} (h : exec i s = .next t) : t.pc = nextPc i s := by
  obtain he | ⟨r, hr, rfl⟩ := exec_cases h
  · exact pc_of_effect he
  · exact (nextPc_of_raises hr).symm

theorem nextPc_le {i : Instr} {s : State} (hwf : i.wf = true) (hpc : s.pc < 100) : nextPc i s ≤ 100 := by
  cases i with
  | bra a => exact Nat.le_succ_of_le (of_decide_eq_true hwf)
  | brz a | brp a =>
    have ha : a ≤ 99 := of_decide_eq_true hwf
    rw [nextPc]
    split_ifs <;> omega
  | hlt _ | add _ | sub _ | sta _ | ldd _ | lda _ | inp | out | prt | unassigned _ => exact hpc

/-- Settles O17: the pc after an instruction is `nextPc`. -/
theorem programCounterFollowsTable : Obligations.ProgramCounterFollowsTable := by
  unfold Obligations.ProgramCounterFollowsTable
  intro i s t h
  rw [exec_pc h]
  refine ⟨?_, ?_, ?_, fun hbra hbrz hbrp => ?_, nextPc_le⟩
  · rintro a rfl; rfl
  · rintro a rfl; rfl
  · rintro a rfl; rfl
  · cases i with
    | bra a => exact absurd rfl (hbra a)
    | brz a => exact absurd rfl (hbrz a)
    | brp a => exact absurd rfl (hbrp a)
    | hlt _ | add _ | sub _ | sta _ | ldd _ | lda _ | inp | out | prt | unassigned _ => rfl

/-! ### What instructions do not depend on -/

/-- No error depends on the accumulator but those of ADD and SUB. -/
theorem raisesError_withAcc {i : Instr} {s : State} {r : Raise} (x : Int) (hi : readsAcc i = false)
    (h : RaisesError i s r) : RaisesError i { s with acc := x } r := by
  cases i with
  | add _ | sub _ => cases hi
  | hlt _ | sta _ | ldd _ | lda _ | bra _ | brz _ | brp _ | inp | out | prt | unassigned _ => exact h

/-- The effect of an instruction that does not read the accumulator: the same written value, or none. -/
theorem effect_withAcc {i : Instr} {s t : State} (x : Int) (hi : readsAcc i = false) (h : Effect i s t) :
    Effect i { s with acc := x } t ∨ (t.acc = s.acc ∧ Effect i { s with acc := x } { t with acc := x }) := by
  cases i with
  | add _ | sub _ | sta _ | brz _ | brp _ | out | prt => cases hi
  | ldd _ | lda _ | inp => exact .inl h
  | hlt _ | bra _ => subst h; exact .inr ⟨rfl, rfl⟩
  | unassigned _ =>
    obtain ⟨hf, rfl⟩ := h
    exact .inr ⟨rfl, hf, rfl⟩

/-- Settles O16, by the effect's and the errors' independence of the accumulator. -/
theorem otherInstructionsDoNotReadAccumulator : Obligations.OtherInstructionsDoNotReadAccumulator := by
  unfold Obligations.OtherInstructionsDoNotReadAccumulator
  intro i s t x hi h
  obtain he | ⟨r, hr, rfl⟩ := exec_cases h
  · obtain hsame | ⟨hacc, hown⟩ := effect_withAcc x hi he
    · exact ⟨t, exec_eq_of_effect hsame, rfl, .inl rfl⟩
    · exact ⟨_, exec_eq_of_effect hown, rfl, .inr ⟨hacc, rfl⟩⟩
  · exact ⟨_, exec_eq_of_raises (raisesError_withAcc x hi hr), rfl, .inr ⟨rfl, rfl⟩⟩

/-- `s` with the events `o` before its sink, and its cursor moved by `q`. -/
def withSinkAndCursor (o : List Event) (q : Nat → Nat) (s : State) : State :=
  { s with out := o ++ s.out, inPos := q s.inPos }

/-- No instruction reads the sink, and only INP reads or writes the cursor. -/
theorem effect_withSinkAndCursor {i : Instr} {s t : State} (o : List Event) {q : Nat → Nat} (hq : i = .inp → q = id)
    (h : Effect i s t) : Effect i (withSinkAndCursor o q s) (withSinkAndCursor o q t) := by
  cases i with
  | hlt _ | bra _ => subst h; rfl
  | add _ | sub _ =>
    obtain ⟨ha, hv, rfl⟩ := h
    exact ⟨ha, hv, rfl⟩
  | sta _ | lda _ | unassigned _ =>
    obtain ⟨ha, rfl⟩ := h
    exact ⟨ha, rfl⟩
  | ldd _ =>
    obtain ⟨ha, p, hp, hpn, rfl⟩ := h
    exact ⟨ha, p, hp, hpn, rfl⟩
  | brz _ | brp _ => exact (congrArg (withSinkAndCursor o q) h).trans (apply_ite ..)
  | inp =>
    rw [hq rfl]
    obtain ⟨v, hin, hv, rfl⟩ | ⟨hin, rfl⟩ := h
    · exact .inl ⟨v, hin, hv, rfl⟩
    · exact .inr ⟨hin, rfl⟩
  | out | prt =>
    subst h
    simp [Effect, withSinkAndCursor, State.emit, State.incPc, State.setPc]

theorem raisesError_withSinkAndCursor {i : Instr} {s : State} {r : Raise} (o : List Event) {q : Nat → Nat}
    (hq : i = .inp → q = id) (h : RaisesError i s r) : RaisesError i (withSinkAndCursor o q s) r := by
  cases i with
  | inp => rw [hq rfl]; exact h
  | hlt _ | add _ | sub _ | sta _ | ldd _ | lda _ | bra _ | brz _ | brp _ | out | prt | unassigned _ => exact h

/-- An instruction does the same whatever stands in the sink before it and, unless it is INP, wherever the cursor is. -/
theorem exec_withSinkAndCursor {i : Instr} {s t : State} (o : List Event) {q : Nat → Nat} (hq : i = .inp → q = id)
    (h : exec i s = .next t) : exec i (withSinkAndCursor o q s) = .next (withSinkAndCursor o q t) := by
  obtain he | ⟨r, hr, rfl⟩ := exec_cases h
  · exact exec_eq_of_effect (effect_withSinkAndCursor o hq he)
  · exact exec_eq_of_raises (raisesError_withSinkAndCursor o hq hr)

/-! ### One step of the CPU -/

theorem decodeIo_wf {sel : Nat} (h : sel ≤ 99) : (decodeIo sel).wf = true := by
  unfold decodeIo
  split
  · rfl
  · rfl
  · rfl
  · exact decide_eq_true ⟨h, by assumption, by assumption, by assumption⟩

/-- The decoder answers only instructions that a word encodes (R50, R54). -/
theorem decodeDigits_wf (w : Nat) : (decodeDigits w).wf = true := by
  have h : w % 100 ≤ 99 := by omega
  unfold decodeDigits
  split
  case h_10 => exact decodeIo_wf h
  all_goals exact decide_eq_true h

theorem wf_of_decode {w : Int} {i : Instr} (h : decode w = .instr i) : i.wf = true := by
  obtain ⟨-, -, hd⟩ | ⟨-, -, hd⟩ | ⟨-, hd⟩ := decode_cases w
  · rw [hd] at h
    injection h with h
    exact h ▸ decodeDigits_wf _
  · rw [hd] at h; cases h
  · rw [hd] at h; cases h

/-- A CPU step executes the fetched instruction, which some word encodes, or takes an error at the fetch address. -/
theorem cpuStep_next {s t : State} (h : cpuStep s = .next t) :
    (∃ i, s.pc < s.params.n ∧ fetch s = .instr i ∧ i.wf = true ∧ exec i s = .next t) ∨
    ∃ r, t = s.takeError s.pc r := by
  obtain ⟨-, hc⟩ | ⟨i, hpc, hd, hc⟩ | ⟨-, -, -, hc⟩ | ⟨-, -, hc⟩ := cpuStep_cases s <;> rw [hc] at h
  · injection h with h
    exact .inr ⟨_, h.symm⟩
  · exact .inl ⟨i, hpc, by rw [fetch_of_lt hpc, fetchedOf, hd], wf_of_decode hd, h⟩
  · injection h with h
    exact .inr ⟨_, h.symm⟩
  · cases h

theorem step_execution {s t : State} (hp : s.phase = .execution) (h : step s = .next t) :
    s.run = .running ∧ cpuStep s = .next t := by
  obtain ⟨-, ⟨hp', -⟩ | ⟨hp', -⟩ | ⟨hp', -⟩ | ⟨hp', -⟩ | ⟨-, hc⟩⟩ := step_cases h
  case inr.inr.inr.inr => exact hc
  all_goals rw [hp] at hp'; cases hp'

/-- Settles O18: `Update.out` bounds what a step appends, and no effect reads the sink. -/
theorem outputSinkIsAppendOnly : Obligations.OutputSinkIsAppendOnly := by
  unfold Obligations.OutputSinkIsAppendOnly
  refine ⟨fun s t hp h => ?_, fun i s t o h => ?_, rfl, fun _ => rfl⟩
  · obtain ⟨i, -, -, -, he⟩ | ⟨r, rfl⟩ := cpuStep_next (step_execution hp h).2
    · obtain hout | ⟨-, ev, -, hout⟩ := (update_of_exec he).out
      · exact ⟨[], by simp [hout], Nat.zero_le 1⟩
      · exact ⟨[ev], hout, le_rfl⟩
    · exact ⟨[], by simp, Nat.zero_le 1⟩
  · exact exec_withSinkAndCursor o (q := id) (fun _ => rfl) h

/-- INP consumes the value at the cursor, or leaves the cursor: the input is exhausted, or the run ends in an error. -/
theorem exec_inp_inPos {s t : State} (h : exec .inp s = .next t) :
    (t.inPos = s.inPos + 1 ∧ s.input[s.inPos]? = some t.acc) ∨
    (t.inPos = s.inPos ∧ (s.input.length ≤ s.inPos ∨ t.run = .halted)) := by
  obtain (⟨v, hin, -, rfl⟩ | ⟨hin, rfl⟩) | ⟨r, -, rfl⟩ := exec_cases h
  · exact .inl ⟨rfl, hin⟩
  · exact .inr ⟨rfl, .inl (List.getElem?_eq_none_iff.1 hin)⟩
  · exact .inr ⟨rfl, .inr rfl⟩

theorem Update.inPos_le {i : Instr} {s t : State} (hu : Update i s t) (h : s.inPos ≤ s.input.length) :
    t.inPos ≤ t.input.length := by
  obtain ⟨-, -, -, hinput, -⟩ := hu.frame
  rw [hinput]
  obtain hpos | ⟨-, hpos, hin⟩ := hu.inPos
  · rwa [hpos]
  · obtain ⟨hlt, -⟩ := List.getElem?_eq_some_iff.1 hin
    omega

/-- Settles O19: only INP has an effect on the cursor or one that reads it. -/
theorem inputCursorAdvancesOncePerConsumedValue : Obligations.InputCursorAdvancesOncePerConsumedValue := by
  unfold Obligations.InputCursorAdvancesOncePerConsumedValue
  refine ⟨fun i s t q hi h => ⟨?_, ?_⟩, fun _ _ => exec_inp_inPos, fun s t hle h => ?_, rfl, fun _ => rfl⟩
  · exact (update_of_exec h).inPos.resolve_right fun ⟨hi', _⟩ => hi hi'
  · exact exec_withSinkAndCursor [] (q := fun _ => q) (fun hi' => absurd hi' hi) h
  · exact (update_of_exec h).inPos_le hle

/-- Settles O26: `Update.run` for an executed instruction, and the errors of the fetch. -/
theorem statusIsSetOnceWhenTheRunHalts : Obligations.StatusIsSetOnceWhenTheRunHalts := by
  unfold Obligations.StatusIsSetOnceWhenTheRunHalts
  refine ⟨⟨rfl, rfl⟩, fun s t hp hlegal h => ?_⟩
  obtain ⟨hrun, hc⟩ := step_execution hp h
  refine ⟨hrun, ?_⟩
  obtain ⟨i, -, hfetch, -, he⟩ | ⟨r, rfl⟩ := cpuStep_next hc
  · obtain ⟨hr, hs⟩ | ⟨⟨hr, -, -⟩, ⟨hs, a, rfl⟩ | herr⟩ := (update_of_exec he).run
    · exact .inl ⟨hr.trans hrun, hs.trans (hlegal.2 hrun)⟩
    · exact .inr (.inl ⟨hr, hs, a, hfetch⟩)
    · exact .inr (.inr ⟨hr, herr⟩)
  · exact .inr (.inr ⟨rfl, _, _, rfl⟩)

/-! ### The symbol table while an assembly stands -/

/-- What `SymtabLegal` asks of the table `tab` while an assembly stands (R27, R72, R77). -/
structure TableLegal (P : Params) (tab : List Symbol) : Prop where
  capacity : tab.length ≤ P.symtabCap
  unique : (tab.map Symbol.key).Nodup
  labels : ∀ e ∈ tab, e.kind = .label → 0 ≤ e.value ∧ e.value < (P.n : Int)
  mnemonics : initializeSymtab <+: tab

theorem TableLegal.symtabLegal {s : State} (h : TableLegal s.params s.asm.symtab) : SymtabLegal s :=
  ⟨h.capacity, h.unique, h.labels, fun _ => h.mnemonics⟩

theorem tableLegal_initializeSymtab {P : Params} (hP : P.ok) : TableLegal P initializeSymtab where
  capacity := hP.2.2
  unique := by decide
  labels := fun e he hk => absurd hk (by revert e; decide)
  mnemonics := List.prefix_rfl

/-- A label declared on a line below `N` keeps the table legal (R74, R80). -/
theorem TableLegal.insert {P : Params} {tab : List Symbol} (h : TableLegal P tab) {name : Text} {k : Nat}
    (hnew : lookup name tab = none) (hcap : tab.length ≠ P.symtabCap) (hk : k < P.n) :
    TableLegal P (tab ++ [{ kind := .label, key := name, value := (k : Int) }]) where
  capacity := by
    have := h.capacity
    rw [List.length_append, List.length_singleton]
    omega
  unique := by
    rw [List.map_append, List.map_singleton, ← List.concat_eq_append]
    exact h.unique.concat (lookup_eq_none.1 hnew)
  labels := by
    intro e he hkind
    obtain he | he := List.mem_append.1 he
    · exact h.labels e he hkind
    · rw [List.mem_singleton.1 he]
      exact ⟨Int.natCast_nonneg k, Int.ofNat_lt.2 hk⟩
  mnemonics := h.mnemonics.trans (List.prefix_append _ _)

theorem TableLegal.of_declared {P : Params} {tab tab' : List Symbol} {k : Nat} {ts : List Text} (h : TableLegal P tab)
    (hd : declared P.symtabCap k tab ts = some tab') (hk : k < P.n) : TableLegal P tab' := by
  obtain rfl | ⟨name, -, hnew, hcap, rfl⟩ := declared_cases hd
  · exact h
  · exact h.insert hnew hcap hk

theorem TableLegal.of_declaredFrom {P : Params} {tab tab' : List Symbol} {k : Nat} {ls : List Text}
    (h : TableLegal P tab) (hd : declaredFrom P.symtabCap k tab ls = some tab') (hk : k + ls.length ≤ P.n) :
    TableLegal P tab' := by
  induction ls generalizing k tab with
  | nil =>
    injection hd with hd
    exact hd ▸ h
  | cons l ls ih =>
    rw [List.length_cons] at hk
    obtain ⟨tab₁, hline, hrest⟩ := Option.bind_eq_some_iff.1 hd
    exact ih (h.of_declared hline (by omega)) hrest (by omega)

/-! ### The resets -/

theorem launch_legal {P : Params} (hP : P.ok) (src : Option Text) (input : List Int) :
    Inv (State.launch P src input) where
  params := hP
  memory := ⟨rfl, rfl⟩
  registers := ⟨Nat.zero_le 100, inWord_zero, Nat.zero_le _, fun _ h => absurd h List.not_mem_nil⟩
  status := ⟨fun _ => rfl, fun _ => rfl⟩
  run := fun _ => rfl
  symtab := (tableLegal_initializeSymtab hP).symtabLegal
  source := fun h => by obtain h | h := h <;> cases h

/-- Settles O36: `State.reset` is the launch with this hardware's parameters and nothing supplied. -/
theorem resetIsLegal : Obligations.ResetIsLegal := by
  unfold Obligations.ResetIsLegal
  exact ⟨launch_legal (P := Config.hardware) (by decide) none [], fun _ src input hP => launch_legal hP src input⟩

/-- Settles O38: each value is the one `State.reset` is written with. -/
theorem resetHoldsTheGivenValues : Obligations.ResetHoldsTheGivenValues := by
  unfold Obligations.ResetHoldsTheGivenValues
  exact ⟨rfl, Memory.read_nil, rfl, rfl, rfl, rfl, rfl, rfl, rfl⟩

theorem step_of_assembled {s : State} (hP : s.params.ok) (hp : s.phase = .assembled) :
    step s = .next (cpuReset s) := by
  rw [step, if_neg (not_not.2 hP), hp]

/-- Settles O39: the step is `cpuReset`. -/
theorem cpuResetStartsTheRunOnTheImage : Obligations.CpuResetStartsTheRunOnTheImage := by
  unfold Obligations.CpuResetStartsTheRunOnTheImage
  intro s hP hp
  exact ⟨cpuReset s, step_of_assembled hP hp, rfl, rfl, rfl, rfl, rfl, rfl, rfl, rfl, rfl, rfl⟩

/-! ### Every step keeps a state legal -/

section
variable {s t : State}

theorem tableLegal_of_inv (h : Inv s)
    (hp : s.phase = .source ∨ s.phase = .pass1 ∨ s.phase = .pass2 ∨ s.phase = .assembled) :
    TableLegal s.params s.asm.symtab :=
  ⟨h.symtab.capacity, h.symtab.unique, h.symtab.labels, h.symtab.mnemonics hp⟩

/-- An assembly step writes the phase, memory and the assembler's registers only; it keeps the state legal when what it
writes is. -/
theorem assemblyUpdate_legal (h : Inv s) (hp : s.phase ≠ .execution) {p : Phase} {m : Memory} {r : AsmRegs}
    (hm : MemoryLegal { s with mem := m }) (htab : TableLegal s.params r.symtab)
    (hsrc : p = .pass1 ∨ p = .pass2 → s.sourceLines.length ≤ s.params.n) :
    Inv { s with phase := p, mem := m, asm := r } where
  params := h.params
  memory := ⟨hm.canonical, hm.inSpace⟩
  registers := ⟨h.registers.pc, h.registers.acc, h.registers.inPos, h.registers.out⟩
  status := h.status
  run := fun _ => h.run hp
  symtab := htab.symtabLegal
  source := hsrc

theorem failAssembly_legal (h : Inv s) (hp : s.phase ≠ .execution) (htab : TableLegal s.params s.asm.symtab)
    (e : AsmError) : Inv (s.failAssembly e) :=
  assemblyUpdate_legal h hp h.memory htab (by simp)

theorem prepareStep_legal (h : Inv s) (hp : s.phase = .source) : Inv (prepareStep s) := by
  have hne : s.phase ≠ .execution := by simp [hp]
  obtain ⟨ls, hok, hs⟩ | ⟨e, -, hs⟩ := prepareStep_cases s <;> rw [hs]
  · obtain ⟨cs, hsrc, rfl, hlen⟩ := prepare_ok hok
    exact assemblyUpdate_legal h hne ⟨rfl, rfl⟩ (tableLegal_initializeSymtab h.params) fun _ => by
      rwa [State.sourceLines, hsrc]
  · exact failAssembly_legal h hne (tableLegal_of_inv h (.inl hp)) e

theorem pass1Step_legal (h : Inv s) (hp : s.phase = .pass1) : Inv (pass1Step s) := by
  have hne : s.phase ≠ .execution := by simp [hp]
  have htab := tableLegal_of_inv h (.inr (.inl hp))
  have hlen := h.source (.inl hp)
  obtain ⟨r, hok, hs⟩ | ⟨e, -, hs⟩ := pass1Step_cases s <;> rw [hs]
  · exact assemblyUpdate_legal h hne h.memory (htab.of_declaredFrom (pass1_ok hok) (by omega)) fun _ => hlen
  · exact failAssembly_legal h hne htab e

theorem pass2Step_legal (h : Inv s) (hp : s.phase = .pass2) : Inv (pass2Step s) := by
  have hne : s.phase ≠ .execution := by simp [hp]
  have htab := tableLegal_of_inv h (.inr (.inr (.inl hp)))
  have hlen := h.source (.inr hp)
  obtain ⟨r, m, hok, hs⟩ | ⟨e, -, hs⟩ := pass2Step_cases s <;> rw [hs]
  · obtain ⟨hsymtab, hwf, hin⟩ := pass2Lines_keeps hok (by omega) h.memory.canonical h.memory.inSpace
    exact assemblyUpdate_legal h hne ⟨hwf, hin⟩ (by rw [hsymtab]; exact htab) (by simp)
  · exact failAssembly_legal h hne htab e

theorem cpuReset_legal (h : Inv s) : Inv (cpuReset s) where
  params := h.params
  memory := ⟨h.memory.canonical, h.memory.inSpace⟩
  registers := ⟨Nat.zero_le 100, inWord_zero, Nat.zero_le _, fun _ hev => absurd hev List.not_mem_nil⟩
  status := ⟨fun _ => rfl, fun _ => rfl⟩
  run := fun _ => rfl
  symtab := ⟨Nat.zero_le _, List.nodup_nil, fun _ he => absurd he List.not_mem_nil, fun hp => by simp [cpuReset] at hp⟩
  source := fun hp => by simp [cpuReset] at hp

/-- An error halts the run and sets the status with it; every other register keeps its legal value (R130). -/
theorem takeError_legal (h : Inv s) (hp : s.phase = .execution) (p : Nat) (r : Raise) : Inv (s.takeError p r) where
  params := h.params
  memory := ⟨h.memory.canonical, h.memory.inSpace⟩
  registers := ⟨h.registers.pc, h.registers.acc, h.registers.inPos, h.registers.out⟩
  status := by simp [StatusLegal]
  run := fun hne => absurd hp hne
  symtab := ⟨h.symtab.capacity, h.symtab.unique, h.symtab.labels, h.symtab.mnemonics⟩
  source := h.source

theorem Update.memoryLegal {i : Instr} (hu : Update i s t) (hm : MemoryLegal s) (hacc : InWord s.acc) :
    MemoryLegal t := by
  obtain ⟨hparams, -⟩ := hu.frame
  obtain hmem | ⟨a, ha, hmem⟩ := hu.mem
  · exact ⟨by rw [hmem]; exact hm.canonical, by rw [hmem, hparams]; exact hm.inSpace⟩
  · exact ⟨by rw [hmem]; exact Memory.wf_write hm.canonical a _,
      by rw [hmem, hparams]; exact Memory.inSpace_write hm.inSpace ha hacc⟩

theorem Update.inWord_acc {i : Instr} (hu : Update i s t) (hm : MemoryLegal s) (hacc : InWord s.acc) :
    InWord t.acc := by
  obtain h | ⟨-, h | ⟨a, h⟩⟩ := hu.acc
  · rwa [h]
  · exact h
  · rw [h]
    exact Memory.inWord_read hm.inSpace a

theorem Update.inWord_out {i : Instr} (hu : Update i s t) (hout : ∀ ev ∈ s.out, ev.inWord) (hacc : InWord s.acc) :
    ∀ ev ∈ t.out, ev.inWord := by
  obtain h | ⟨-, ev, hev, h⟩ := hu.out <;> rw [h]
  · exact hout
  · intro e he
    obtain he | he := List.mem_append.1 he
    · exact hout e he
    · rw [List.mem_singleton.1 he]
      obtain rfl | rfl := hev <;> exact hacc

theorem Update.statusLegal {i : Instr} (hu : Update i s t) (h : StatusLegal s) : StatusLegal t := by
  rw [StatusLegal]
  obtain ⟨hr, hs⟩ | ⟨⟨hr, -, -⟩, ⟨hs, -⟩ | ⟨k, v, hs⟩⟩ := hu.run
  · rwa [hr, hs]
  · simp [hr, hs]
  · simp [hr, hs]

theorem exec_legal {i : Instr} (h : Inv s) (hp : s.phase = .execution) (hpc : s.pc < s.params.n) (hwf : i.wf = true)
    (he : exec i s = .next t) : Inv t := by
  have hu := update_of_exec he
  obtain ⟨hparams, hphase, hsrc, -, hasm⟩ := hu.frame
  have hn : s.params.n ≤ 100 := h.params.2.1
  exact {
    params := by rw [hparams]; exact h.params
    memory := hu.memoryLegal h.memory h.registers.acc
    registers :=
      { pc := by rw [exec_pc he]; exact nextPc_le hwf (by omega)
        acc := hu.inWord_acc h.memory h.registers.acc
        inPos := hu.inPos_le h.registers.inPos
        out := hu.inWord_out h.registers.out h.registers.acc }
    status := hu.statusLegal h.status
    run := fun hne => absurd (hphase.trans hp) hne
    symtab :=
      { capacity := by rw [hasm, hparams]; exact h.symtab.capacity
        unique := by rw [hasm]; exact h.symtab.unique
        labels := by rw [hasm, hparams]; exact h.symtab.labels
        mnemonics := by rw [hasm, hphase]; exact h.symtab.mnemonics }
    source := by rw [SourceLegal, State.sourceLines, hphase, hsrc, hparams]; exact h.source }

theorem cpuStep_legal (h : Inv s) (hp : s.phase = .execution) (hc : cpuStep s = .next t) : Inv t := by
  obtain ⟨i, hpc, -, hwf, he⟩ | ⟨r, rfl⟩ := cpuStep_next hc
  · exact exec_legal h hp hpc hwf he
  · exact takeError_legal h hp _ r

end

/-- Settles O37, phase by phase. -/
theorem everyStepKeepsStatesLegal : Obligations.EveryStepKeepsStatesLegal := by
  unfold Obligations.EveryStepKeepsStatesLegal
  intro s t h hstep
  obtain ⟨-, ⟨hp, rfl⟩ | ⟨hp, rfl⟩ | ⟨hp, rfl⟩ | ⟨-, rfl⟩ | ⟨hp, -, hc⟩⟩ := step_cases hstep
  · exact prepareStep_legal h hp
  · exact pass1Step_legal h hp
  · exact pass2Step_legal h hp
  · exact cpuReset_legal h
  · exact cpuStep_legal h hp hc

end Sys2Proof.Proofs
end

section
/-! PROOFS. The statements about memory (20_memory.md): which instruction writes it and where, which can leave the
address space, and that a step fetches what the step before it has stored. -/

namespace Sys2Proof.Proofs

open Sys2Proof.Machine Sys2Proof.Claims

section
variable {i : Instr} {s t : State}

/-! ### Writes and errors -/

/-- An instruction that raises nothing writes memory only if it is STA, at its operand, and records no error. -/
theorem mem_and_status_of_effect (h : Effect i s t) :
    (t.mem = s.mem ∨ ∃ a, i = .sta a ∧ t.mem = Memory.write s.mem a s.acc) ∧
    (t.status = s.status ∨ t.status = .ok) := by
  cases i with
  | sta a =>
    obtain ⟨-, rfl⟩ := h
    exact ⟨.inr ⟨a, rfl, rfl⟩, .inl rfl⟩
  | hlt _ => subst h; exact ⟨.inl rfl, .inr rfl⟩
  | bra _ | out | prt => subst h; exact ⟨.inl rfl, .inl rfl⟩
  | add _ | sub _ =>
    obtain ⟨-, -, rfl⟩ := h
    exact ⟨.inl rfl, .inl rfl⟩
  | lda _ | unassigned _ =>
    obtain ⟨-, rfl⟩ := h
    exact ⟨.inl rfl, .inl rfl⟩
  | ldd _ =>
    obtain ⟨-, _, -, -, rfl⟩ := h
    exact ⟨.inl rfl, .inl rfl⟩
  | brz _ | brp _ =>
    rw [show t = _ from h]
    split_ifs <;> exact ⟨.inl rfl, .inl rfl⟩
  | inp => obtain ⟨_, -, -, rfl⟩ | ⟨-, rfl⟩ := h <;> exact ⟨.inl rfl, .inl rfl⟩

/-- Memory keeps its content, or STA has stored the accumulator at its operand (R38, R108). -/
theorem mem_of_exec (h : exec i s = .next t) :
    t.mem = s.mem ∨ ∃ a, i = .sta a ∧ t.mem = Memory.write s.mem a s.acc := by
  obtain he | ⟨r, -, rfl⟩ := exec_cases h
  · exact (mem_and_status_of_effect he).1
  · exact .inl rfl

/-- An error recorded on a clean status is one the instruction raised. -/
theorem raises_of_status {k : ExecErrorKind} {p : Nat} {v : Option Int} (hs : s.status = .none)
    (h : exec i s = .next t) (ht : t.status = .error k p v) : ∃ r, RaisesError i s r ∧ r.kind = k := by
  obtain he | ⟨r, hr, rfl⟩ := exec_cases h
  · obtain ⟨-, hst | hst⟩ := mem_and_status_of_effect he <;> rw [hst] at ht
    · rw [hs] at ht; cases ht
    · cases ht
  · injection ht with hk
    exact ⟨r, hr, hk⟩

/-- A two-digit operand names a cell when `N = 100`, so only a pointer can lead out of memory (R37, R38, R133). -/
theorem ldd_of_raises_addressOutOfRange {r : Raise} (hwf : i.wf = true) (hn : s.params.n = 100)
    (h : RaisesError i s r) (hk : r.kind = .addressOutOfRange) : ∃ a, i = .ldd a := by
  cases i with
  | ldd a => exact ⟨a, rfl⟩
  | add a | sub a =>
    have ha : a ≤ 99 := of_decide_eq_true hwf
    obtain ⟨hle, -⟩ | ⟨-, -, rfl⟩ := h
    · omega
    · cases hk
  | sta a | lda a =>
    have ha : a ≤ 99 := of_decide_eq_true hwf
    have hle : s.params.n ≤ a := h.1
    omega
  | inp =>
    obtain ⟨_, -, -, rfl⟩ := h
    cases hk
  | unassigned _ =>
    obtain ⟨-, rfl⟩ := h
    cases hk
  | hlt _ | bra _ | brz _ | brp _ | out | prt => exact h.elim

/-! ### A store and the fetch after it -/

theorem step_eq_exec (h : Running s) (hd : decode (Memory.read s.mem s.pc) = .instr i) : step s = exec i s := by
  rw [step, if_neg (not_not.2 h.params), h.phase]
  change executionStep s = exec i s
  rw [executionStep, h.run]
  change cpuStep s = exec i s
  rw [cpuStep, fetch_of_lt h.pc, fetchedOf, hd]

theorem decode_sta_word {a : Nat} (ha : a ≤ 99) : decode (300 + (a : Int)) = .instr (.sta a) := by
  have hdigit : digit 2 (300 + a) = 3 := by rw [digit]; omega
  have hoperand : (300 + a) % 100 = a := by omega
  have hword := decode_of_word (w := 300 + a) (by omega)
  rwa [decodeDigits, hdigit, hoperand] at hword

end

/-- Settles O14: a write leaves every other cell alone, and only STA writes. -/
theorem onlyStaWritesMemoryAndOnlyItsCell : Obligations.OnlyStaWritesMemoryAndOnlyItsCell := by
  unfold Obligations.OnlyStaWritesMemoryAndOnlyItsCell
  intro i s t h
  obtain hmem | ⟨a, rfl, hmem⟩ := mem_of_exec h <;> rw [hmem]
  · exact ⟨fun _ _ => rfl, fun _ _ _ _ => rfl⟩
  · refine ⟨fun hne => absurd rfl (hne a), ?_⟩
    rintro _ ⟨⟩ b hb
    exact Memory.read_write_of_ne s.mem s.acc fun hba => hb (congrArg Int.ofNat hba)

/-- Settles O20: the recorded error was raised, and only LDD raises this one. -/
theorem onlyLddCanRaiseAddressOutOfRange : Obligations.OnlyLddCanRaiseAddressOutOfRange := by
  unfold Obligations.OnlyLddCanRaiseAddressOutOfRange
  intro i s t p v hwf hn hs h ht
  obtain ⟨r, hr, hk⟩ := raises_of_status hs h ht
  exact ldd_of_raises_addressOutOfRange hwf hn hr hk

/-- Settles O35: the state after the store is running at the stored word, which it reads back. -/
theorem storedWordIsFetchedByTheNextStep : Obligations.StoredWordIsFetchedByTheNextStep := by
  unfold Obligations.StoredWordIsFetchedByTheNextStep
  intro s i hs hwf hpc hsta hacc
  have hn : s.params.n ≤ 100 := hs.params.2.1
  have hstore : step s = .next (s.incPc.setCell (s.pc + 1) s.acc) := by
    rw [step_eq_exec hs (hsta ▸ decode_sta_word (by omega))]
    exact exec_eq_of_effect ⟨hpc, rfl⟩
  have hread : Memory.read (Memory.write s.mem (s.pc + 1) s.acc) (s.pc + 1) = s.acc :=
    Memory.read_write_same hwf (s.pc + 1) s.acc
  exact ⟨_, hstore, rfl, step_eq_exec ⟨hs.params, hs.phase, hs.run, hpc⟩ ((congrArg decode hread).trans hacc)⟩

end Sys2Proof.Proofs
end

section
/-! PROOFS. The statements about the encoding (30_encoding.md): the decoder undoes the encoder and the encoder the
decoder, the opcode map and the vectors' words follow from the first; and the assembler's line for an instruction is the
encoder's word. -/

namespace Sys2Proof.Proofs

open Sys2Proof.Machine Sys2Proof.Claims

/-! ### Decoding an encoded instruction -/

/-- The instruction of an opcode digit and an operand (R54). -/
def instrOfDigits (opcodeDigit operand : Nat) : Instr :=
  match opcodeDigit with
  | 0 => .hlt operand
  | 1 => .add operand
  | 2 => .sub operand
  | 3 => .sta operand
  | 4 => .ldd operand
  | 5 => .lda operand
  | 6 => .bra operand
  | 7 => .brz operand
  | 8 => .brp operand
  | _ => decodeIo operand

theorem decodeDigits_eq (w : Nat) : decodeDigits w = instrOfDigits (digit 2 w) (w % 100) := rfl

/-- The hundreds digit of `word = opcode_base + operand` is the opcode's, and the rest is the operand (R50, R51). -/
theorem decodeDigits_add (k : Nat) {a : Nat} (ha : a ≤ 99) (hk : k ≤ 9 := by decide) :
    decodeDigits (100 * k + a) = instrOfDigits k a := by
  have hdigit : digit 2 (100 * k + a) = k := by rw [digit]; omega
  have hoperand : (100 * k + a) % 100 = a := by omega
  rw [decodeDigits_eq, hdigit, hoperand]

theorem decodeIo_of_unassigned {sel : Nat} (h : UnassignedSelector sel) : decodeIo sel = .unassigned sel := by
  obtain ⟨-, h1, h2, h3⟩ := h
  unfold decodeIo
  split
  · exact absurd rfl h1
  · exact absurd rfl h2
  · exact absurd rfl h3
  · rfl

theorem decodeDigits_encode {i : Instr} (h : i.wf = true) : decodeDigits (opcodeBase i + operandField i) = i := by
  cases i with
  | hlt a => exact decodeDigits_add 0 (of_decide_eq_true h)
  | add a => exact decodeDigits_add 1 (of_decide_eq_true h)
  | sub a => exact decodeDigits_add 2 (of_decide_eq_true h)
  | sta a => exact decodeDigits_add 3 (of_decide_eq_true h)
  | ldd a => exact decodeDigits_add 4 (of_decide_eq_true h)
  | lda a => exact decodeDigits_add 5 (of_decide_eq_true h)
  | bra a => exact decodeDigits_add 6 (of_decide_eq_true h)
  | brz a => exact decodeDigits_add 7 (of_decide_eq_true h)
  | brp a => exact decodeDigits_add 8 (of_decide_eq_true h)
  | inp | out | prt => rfl
  | unassigned sel =>
    have hsel : UnassignedSelector sel := of_decide_eq_true h
    exact (decodeDigits_add 9 hsel.1).trans (decodeIo_of_unassigned hsel)

open Laws.EncodedWord in
theorem encodedWord (i : Instr) : Statement i := by
  cases i
  exacts [hlt _, add _, sub _, sta _, ldd _, lda _, bra _, brz _, brp _, inp, out, prt, unassigned _]

theorem decode_encode {i : Instr} (h : i.wf = true) : decode (encode i) = .instr i := by
  obtain ⟨-, hle⟩ := encodedWord i h
  rw [encode, decode_of_word (Int.ofNat_le.1 hle), decodeDigits_encode h]

/-- Settles O29: the word's digits are the opcode's and the operand. -/
theorem decodeOfEncodeIsIdentity : Obligations.DecodeOfEncodeIsIdentity := by
  unfold Obligations.DecodeOfEncodeIsIdentity
  exact fun i h => decode_encode h

/-! ### Encoding a decoded word -/

theorem encode_decodeIo (operand : Nat) : encode (decodeIo operand) = (900 + operand : Nat) := by
  unfold decodeIo
  split <;> rfl

theorem encode_instrOfDigits {k : Nat} (hk : k ≤ 9) (a : Nat) : encode (instrOfDigits k a) = (100 * k + a : Nat) := by
  obtain rfl | hk8 : k = 9 ∨ k ≤ 8 := by omega
  · exact encode_decodeIo a
  · interval_cases k <;> rfl

/-- A word of three digits is the encoding of what it decodes to (R50, R51). -/
theorem encode_decodeDigits {w : Nat} (h : w ≤ 999) : encode (decodeDigits w) = (w : Int) := by
  rw [decodeDigits_eq, encode_instrOfDigits (by rw [digit]; omega), digit]
  omega

/-- Settles O30: the three clauses are the decoder's three classes. -/
theorem everyWordHasOneDecoding : Obligations.EveryWordHasOneDecoding := by
  unfold Obligations.EveryWordHasOneDecoding
  refine ⟨fun w h0 h999 => ?_, fun w h999 h1 => ?_, fun w h => ?_⟩
  · lift w to Nat using h0
    have hw : w ≤ 999 := Int.ofNat_le.1 h999
    exact ⟨decodeDigits w, decodeDigits_wf w, decode_of_word hw, encode_decodeDigits hw⟩
  · exact decode_of_negative ⟨h999, by rw [wordMax]; omega⟩ (by omega)
  · exact decode_of_not_inWord (by rw [InWord, wordMin, wordMax]; omega)

/-! ### The opcode map -/

/-- Settles O31: every word of the map is the encoding of its instruction. -/
theorem opcodeMapFollowsTheTable : Obligations.OpcodeMapFollowsTheTable := by
  unfold Obligations.OpcodeMapFollowsTheTable
  refine ⟨fun a ha => ?_, decode_encode (i := .unassigned 0) rfl, decode_encode (i := .inp) rfl,
    decode_encode (i := .out) rfl, decode_encode (i := .prt) rfl, fun a h4 h99 => ?_⟩
  · have hwf := decide_eq_true ha
    exact ⟨decode_encode (i := .hlt a) hwf, decode_encode (i := .add a) hwf, decode_encode (i := .sub a) hwf,
      decode_encode (i := .sta a) hwf, decode_encode (i := .ldd a) hwf, decode_encode (i := .lda a) hwf,
      decode_encode (i := .bra a) hwf, decode_encode (i := .brz a) hwf, decode_encode (i := .brp a) hwf⟩
  · exact decode_encode (i := .unassigned a) (decide_eq_true ⟨h99, by omega, by omega, by omega⟩)

/-- Settles O32: every word is the encoding of the instruction it stands for. -/
theorem writtenOutWordsDecode : Obligations.WrittenOutWordsDecode := by
  unfold Obligations.WrittenOutWordsDecode
  exact ⟨decode_encode (i := .hlt 99) rfl, decode_encode (i := .add 0) rfl, decode_encode (i := .sub 6) rfl,
    decode_encode (i := .sta 99) rfl, decode_encode (i := .ldd 3) rfl, decode_encode (i := .lda 99) rfl,
    decode_encode (i := .bra 2) rfl, decode_encode (i := .brz 5) rfl, decode_encode (i := .brp 6) rfl,
    decode_encode (i := .inp) rfl, decode_encode (i := .out) rfl, decode_encode (i := .prt) rfl,
    decode_encode (i := .unassigned 11) rfl⟩

end Sys2Proof.Proofs
end

section
/-! PROOFS. The assembler's line for an instruction (41_assembler.md): the decimal text of an operand is its literal, a
line of a mnemonic and a literal has these two tokens, and its assembly is the checked sum of their values. -/

namespace Sys2Proof.Proofs

open Sys2Proof.Machine Sys2Proof.Claims

/-! ### The decimal text of a natural number -/

theorem digitValue_ofNat {d : Nat} (h : d ≤ 9) : digitValue (Char.ofNat (48 + d)) = some d := by
  interval_cases d <;> rfl

theorem digitsValue_append (v : Nat) (xs ys : Text) :
    digitsValue v (xs ++ ys) = (digitsValue v xs).bind fun v' => digitsValue v' ys := by
  induction xs generalizing v with
  | nil => rfl
  | cons c xs ih =>
    rw [List.cons_append, digitsValue, digitsValue]
    cases digitValue c with
    | none => rfl
    | some d => exact ih _

theorem digitsValue_digitsRev {fuel n : Nat} (h : n < fuel) : digitsValue 0 (digitsRev fuel n).reverse = some n := by
  induction fuel generalizing n with
  | zero => omega
  | succ fuel ih =>
    rw [digitsRev]
    split_ifs with hn
    · rw [List.reverse_singleton, digitsValue, digitValue_ofNat (by omega)]
      simp [digitsValue]
    · rw [List.reverse_cons, digitsValue_append, ih (by omega), Option.bind_some, digitsValue,
        digitValue_ofNat (by omega)]
      simp only [digitsValue, Option.some.injEq]
      omega

theorem decimalDigits_ne_nil (n : Nat) : decimalDigits n ≠ [] := by
  rw [decimalDigits, digitsRev]
  split_ifs <;> simp

theorem unsignedValue_decimalDigits (n : Nat) : unsignedValue (decimalDigits n) = some n := by
  have hv : digitsValue 0 (decimalDigits n) = some n := digitsValue_digitsRev (Nat.lt_succ_self n)
  cases hd : decimalDigits n with
  | nil => exact absurd hd (decimalDigits_ne_nil n)
  | cons c cs => rwa [hd] at hv

/-- A literal without a sign has the value of its digits (R87). -/
theorem intLiteral_of_unsigned {t : Text} {n : Nat} (h : unsignedValue t = some n) : intLiteral t = some (n : Int) := by
  cases t with
  | nil => cases h
  | cons c cs =>
    rw [intLiteral]
    split_ifs with hminus hplus
    · subst hminus; cases h
    · subst hplus; cases h
    · rw [h]; rfl

/-! ### The characters of a literal and of a mnemonic -/

/-- A character that ends neither a token nor a line and that no check refuses (R67 to R69). -/
def plainChar (c : Char) : Bool := !separator c && decide (c ≠ '\n') && !unsupportedChar c

theorem plainChar_iff {c : Char} :
    plainChar c = true ↔ separator c = false ∧ c ≠ '\n' ∧ unsupportedChar c = false := by
  simp [plainChar, and_assoc]

theorem plainChar_of_digit {c : Char} {d : Nat} (h : digitValue c = some d) : plainChar c = true := by
  have hne : ∀ {c' : Char}, digitValue c' = none → c ≠ c' := by
    rintro c' hnone rfl
    rw [h] at hnone
    cases hnone
  simp [plainChar, separator, unsupportedChar, hne (c' := ' ') rfl, hne (c' := '\t') rfl, hne (c' := '\n') rfl,
    hne (c' := Char.ofNat 13) rfl, hne (c' := Char.ofNat 11) rfl, hne (c' := Char.ofNat 12) rfl]

theorem plainChar_of_digitsValue {t : Text} {v n : Nat} (h : digitsValue v t = some n) :
    ∀ c ∈ t, plainChar c = true := by
  induction t generalizing v with
  | nil => exact List.forall_mem_nil _
  | cons c cs ih =>
    rw [digitsValue] at h
    cases hc : digitValue c with
    | none => rw [hc] at h; cases h
    | some d =>
      rw [hc] at h
      exact List.forall_mem_cons.2 ⟨plainChar_of_digit hc, ih h⟩

theorem plainChar_of_unsignedValue {t : Text} {n : Nat} (h : unsignedValue t = some n) :
    ∀ c ∈ t, plainChar c = true := by
  cases t with
  | nil => cases h
  | cons c cs => exact plainChar_of_digitsValue h

theorem plainChar_of_intLiteral {t : Text} {v : Int} (h : intLiteral t = some v) : ∀ c ∈ t, plainChar c = true := by
  cases t with
  | nil => cases h
  | cons c cs =>
    rw [intLiteral] at h
    split_ifs at h with hminus hplus
    all_goals obtain ⟨n, hn, -⟩ := Option.map_eq_some_iff.1 h
    · exact List.forall_mem_cons.2 ⟨by rw [hminus]; decide, plainChar_of_unsignedValue hn⟩
    · exact List.forall_mem_cons.2 ⟨by rw [hplus]; decide, plainChar_of_unsignedValue hn⟩
    · exact plainChar_of_unsignedValue hn

/-- The table's first entries are mnemonics, and each key is a token (R61, R72). -/
theorem initializeSymtab_entries :
    ∀ e ∈ initializeSymtab, e.kind = .mnemonic ∧ e.key ≠ [] ∧ e.key.all plainChar = true := by
  decide

/-- No mnemonic is an integer literal, so without a label of its text a literal resolves to its value (R86). -/
theorem lookup_initializeSymtab_of_intLiteral {t : Text} {v : Int} (h : intLiteral t = some v) :
    lookup t initializeSymtab = none := by
  have hnone : ∀ e ∈ initializeSymtab, intLiteral e.key = none := by decide
  cases hl : lookup t initializeSymtab with
  | none => rfl
  | some e =>
    obtain ⟨hmem, rfl⟩ := lookup_some hl
    rw [hnone e hmem] at h
    cases h

/-! ### The lexer on one line (R67 to R69) -/

theorem linesFrom_append {l : Text} (h : '\n' ∉ l) (cur rest : Text) :
    linesFrom cur (l ++ rest) = linesFrom (cur ++ l) rest := by
  induction l generalizing cur with
  | nil => rw [List.nil_append, List.append_nil]
  | cons c l ih =>
    obtain ⟨hc, hl⟩ := not_or.1 (mt List.mem_cons.2 h)
    rw [List.cons_append, linesFrom, if_neg (Ne.symm hc), ih hl, List.append_assoc, List.singleton_append]

theorem lines_singleton {l : Text} (hne : l ≠ []) (h : '\n' ∉ l) : lines l = [l] := by
  have := linesFrom_append h [] []
  rwa [List.append_nil, List.nil_append, linesFrom, if_neg hne] at this

theorem tokensFrom_append {t : Text} (h : ∀ c ∈ t, separator c = false) (cur rest : Text) :
    tokensFrom cur (t ++ rest) = tokensFrom (cur ++ t) rest := by
  induction t generalizing cur with
  | nil => rw [List.nil_append, List.append_nil]
  | cons c t ih =>
    obtain ⟨hc, ht⟩ := List.forall_mem_cons.1 h
    rw [List.cons_append, tokensFrom, if_neg (by rw [hc]; decide), ih ht, List.append_assoc, List.singleton_append]

theorem tokens_singleton {t : Text} (hne : t ≠ []) (h : ∀ c ∈ t, separator c = false) : tokens t = [t] := by
  have := tokensFrom_append h [] []
  rwa [List.append_nil, List.nil_append, tokensFrom, if_neg hne] at this

/-- The checks before pass 1 let a single line through that holds no character they refuse (R76). -/
theorem prepare_singleLine {P : Params} {l : Text} (hP : 1 ≤ P.n) (hne : l ≠ [])
    (hl : ∀ c ∈ l, c ≠ '\n' ∧ unsupportedChar c = false) : prepare P (some l) = .ok [l] := by
  have hany : ¬ l.any unsupportedChar = true := by
    rw [List.any_eq_true]
    rintro ⟨c, hc, hrefused⟩
    rw [(hl c hc).2] at hrefused
    cases hrefused
  rw [prepare, lines_singleton hne fun hc => (hl _ hc).1 rfl, firstUnsupported, if_neg hany, firstUnsupported]
  exact if_neg (by rw [List.length_singleton]; omega)

section
variable {name operand : Text} (hname : ∀ c ∈ name, plainChar c = true)
  (hoperand : ∀ c ∈ operand, plainChar c = true)
include hname hoperand

theorem prepare_sourceLine {P : Params} (hP : 1 ≤ P.n) :
    prepare P (some (sourceLine name operand)) = .ok [sourceLine name operand] := by
  refine prepare_singleLine hP (by simp [sourceLine]) ?_
  exact List.forall_mem_append.2 ⟨fun c hc => (plainChar_iff.1 (hname c hc)).2,
    List.forall_mem_cons.2 ⟨by decide, fun c hc => (plainChar_iff.1 (hoperand c hc)).2⟩⟩

theorem tokens_sourceLine (hn : name ≠ []) (ho : operand ≠ []) :
    tokens (sourceLine name operand) = [name, operand] := by
  have hrest : tokensFrom [] operand = [operand] :=
    tokens_singleton ho fun c hc => (plainChar_iff.1 (hoperand c hc)).1
  rw [tokens, sourceLine, tokensFrom_append fun c hc => (plainChar_iff.1 (hname c hc)).1, List.nil_append, tokensFrom,
    if_pos (by decide), if_neg hn, hrest]

end

/-! ### The two passes on one line -/

/-- A line that a mnemonic opens declares nothing (R80). -/
theorem declared_of_lookup {cap k : Nat} {tab : List Symbol} {t : Text} {ts : List Text} {e : Symbol}
    (h : lookup t tab = some e) : declared cap k tab (t :: ts) = some tab := by
  rw [declared, h]

theorem pass1_singleLine {P : Params} {l t : Text} {ts : List Text} {e : Symbol} {r : AsmRegs} (hl : tokens l = t :: ts)
    (ht : lookup t r.symtab = some e) : ∃ r', pass1 P [l] r = .ok r' ∧ r'.symtab = r.symtab := by
  have := pass1_symtab P [l] r
  rwa [declaredFrom, hl, declared_of_lookup ht, Option.bind_some, declaredFrom] at this

/-- The pass registers once the mnemonic `m` of value `v` has opened line `k` (R83). -/
def afterMnemonic (r : AsmRegs) (k : Nat) (m : Text) (v : Int) : AsmRegs :=
  { startLine r k with word := v, opm := some m, slot := .data }

/-- A mnemonic in the Label slot is handled as the line's Op (R82). -/
theorem pass2Token_mnemonic {r : AsmRegs} {k : Nat} {m : Text} {e : Symbol} (hm : lookup m r.symtab = some e)
    (hk : e.kind = .mnemonic) : pass2Token (startLine r k) m = .ok (afterMnemonic r k m e.value) := by
  simp [pass2Token, startLine, labelSlot, opSlot, hm, hk, afterMnemonic]

theorem pass2Token_operand {r : AsmRegs} {x : Text} {v : Int} (hs : r.slot = .data) (hx : resolve r x = .ok v) :
    pass2Token r x =
      .ok { r with word := if ignoresOperand r then r.word else r.word + v, hasData := true, slot := .extra } := by
  rw [pass2Token, hs]
  change dataSlot r x = _
  rw [dataSlot, hx]
  rfl

theorem lineWord_of_hasData {r : AsmRegs} (h : r.hasData = true) : lineWord r = checkedWord r.line r.word := by
  have hlacks : lacksOperand r = false := by
    rw [lacksOperand]
    split <;> simp [h]
  rw [lineWord, hlacks]
  rfl

/-- A mnemonic and an operand give the sum of their values, or the mnemonic's value where the operand is ignored (R84,
R88). -/
theorem lineResult_operand {r : AsmRegs} {k : Nat} {m x : Text} {e : Symbol} {v : Int}
    (hm : lookup m r.symtab = some e) (hk : e.kind = .mnemonic) (hx : resolve (startLine r k) x = .ok v) :
    lineResult r k [m, x] = checkedWord k (if m ∈ operandIgnored then e.value else e.value + v) := by
  have hoperand := pass2Token_operand (r := afterMnemonic r k m e.value) rfl hx
  rw [lineResult, pass2Tokens, pass2Token_mnemonic hm hk]
  change (pass2Tokens (afterMnemonic r k m e.value) [x]).bind lineWord = _
  rw [pass2Tokens, hoperand]
  refine (lineWord_of_hasData rfl).trans ?_
  simp [ignoresOperand, afterMnemonic, startLine]

/-- An operand that is no name of the table resolves to the literal it is (R86). -/
theorem resolve_of_intLiteral {r : AsmRegs} {x : Text} {v : Int} (hl : lookup x r.symtab = none)
    (hv : intLiteral x = some v) : resolve r x = .ok v := by
  rw [resolve, hl, hv]

/-- Pass 2 of a single line puts the line's word at address 0 (R88, R89). -/
theorem pass2_singleLine (l : Text) (r : AsmRegs) (m : Memory) :
    (pass2 [l] r m).map Prod.snd = (lineResult r 0 (tokens l)).map (Memory.write m 0) := by
  rw [pass2, pass2Lines, lineResult]
  change ((pass2Tokens (startLine r 0) (tokens l)).bind _).map _ = ((pass2Tokens (startLine r 0) (tokens l)).bind _).map _
  cases pass2Tokens (startLine r 0) (tokens l) with
  | error e => rfl
  | ok r' =>
    change ((lineWord r').bind _).map _ = (lineWord r').map _
    cases lineWord r' <;> rfl

/-- A source of one line that holds a mnemonic assembles to what pass 2 makes of the line (R76). -/
theorem assemble_singleLine {P : Params} {l t : Text} {ts : List Text} {e : Symbol}
    (hl : prepare P (some l) = .ok [l]) (hts : tokens l = t :: ts) (ht : lookup t initializeSymtab = some e) :
    ∃ r, r.symtab = initializeSymtab ∧
      assemble P (some l) = (lineResult r 0 (tokens l)).map (Memory.write [] 0) := by
  obtain ⟨r, hr, htab⟩ := pass1_singleLine (P := P) (r := AsmRegs.reset) hts ht
  refine ⟨r, htab, ?_⟩
  rw [← pass2_singleLine, assemble, hl]
  change (pass1 P [l] AsmRegs.reset).bind _ = _
  rw [hr]
  rfl

/-- A source of one line, a mnemonic and an integer literal, assembles to the checked sum at address 0, or to the
mnemonic's value where the operand is ignored (R84, R88, R90). -/
theorem assemble_sourceLine {P : Params} {name operand : Text} {e : Symbol} {v : Int} (hP : P.ok)
    (hname : lookup name initializeSymtab = some e) (hv : intLiteral operand = some v) :
    assemble P (some (sourceLine name operand)) =
      (checkedWord 0 (if name ∈ operandIgnored then e.value else e.value + v)).map (Memory.write [] 0) := by
  obtain ⟨hmem, rfl⟩ := lookup_some hname
  obtain ⟨hkind, hne, hall⟩ := initializeSymtab_entries e hmem
  have hplain := List.all_eq_true.1 hall
  have hone : operand ≠ [] := by rintro rfl; cases hv
  have hoperand := plainChar_of_intLiteral hv
  have htokens := tokens_sourceLine hplain hoperand hne hone
  obtain ⟨r, hr, hassemble⟩ := assemble_singleLine (prepare_sourceLine hplain hoperand hP.1) htokens hname
  have hlookup : lookup operand (startLine r 0).symtab = none := by
    rw [startLine, hr]
    exact lookup_initializeSymtab_of_intLiteral hv
  rw [hassemble, htokens, lineResult_operand (hr ▸ hname) hkind (resolve_of_intLiteral hlookup hv)]

/-! ### The line of an instruction -/

/-- The mnemonics' entries carry the instructions' opcode bases (R58, R61). -/
theorem lookup_nameOf {i : Instr} {name : Text} (h : nameOf i = some name) :
    lookup name initializeSymtab = some { kind := .mnemonic, key := name, value := opcodeBase i } := by
  cases i with
  | unassigned _ => cases h
  | _ => injection h with h; subst h; rfl

/-- Settles O54: the word passes the check of R88 because its instruction is well formed. -/
theorem assembledLineIsTheEncodedInstruction : Obligations.AssembledLineIsTheEncodedInstruction := by
  unfold Obligations.AssembledLineIsTheEncodedInstruction
  intro P i name hP hwf hname
  have hline := assemble_sourceLine hP (lookup_nameOf hname)
    (intLiteral_of_unsigned (unsignedValue_decimalDigits (operandField i)))
  obtain ⟨-, hle⟩ := encodedWord i hwf
  have hword : InWord (if name ∈ operandIgnored then (opcodeBase i : Int) else opcodeBase i + operandField i) := by
    rw [encode] at hle
    rw [InWord, wordMin, wordMax]
    split_ifs <;> omega
  rw [checkedWord, if_pos hword] at hline
  refine ⟨_, hline, (Memory.read_write_same Memory.wf_nil 0 _).trans ?_⟩
  rw [encode, Nat.cast_add]

end Sys2Proof.Proofs
end

section
/-! PROOFS. The statements about the lexer and the symbol table (40_lexer_symtab.md): the equations that fix the lines
and the tokens, the checks before pass 1 in their order, and the table's capacity. -/

namespace Sys2Proof.Proofs

open Sys2Proof.Machine Sys2Proof.Claims

/-! ### Lines -/

/-- A line feed ends the line before it (R67). -/
theorem lines_append_lineFeed {l : Text} (h : '\n' ∉ l) (rest : Text) : lines (l ++ '\n' :: rest) = l :: lines rest := by
  rw [lines, linesFrom_append h, List.nil_append, linesFrom, if_pos rfl, lines]

/-- Settles O44: the characters up to the first line feed are gathered into one line. -/
theorem linesEndAtLineFeeds : Obligations.LinesEndAtLineFeeds := by
  unfold Obligations.LinesEndAtLineFeeds
  exact ⟨rfl, fun _ => lines_singleton, fun _ rest h => lines_append_lineFeed h rest⟩

/-! ### Tokens -/

/-- The model names its characters, the statements give their code points. -/
theorem eq_iff_toNat_eq {c d : Char} : c = d ↔ c.toNat = d.toNat :=
  ⟨congrArg Char.toNat, fun h => Char.ext (UInt32.toNat_inj.1 h)⟩

theorem separator_eq_false_iff {c : Char} : separator c = false ↔ TokenChar c := by
  rw [separator, Bool.or_eq_false_iff, decide_eq_false_iff_not, decide_eq_false_iff_not, eq_iff_toNat_eq,
    eq_iff_toNat_eq]
  rfl

theorem separator_iff_not_tokenChar {c : Char} : separator c = true ↔ ¬ TokenChar c := by
  rw [← separator_eq_false_iff, Bool.not_eq_false]

/-- A separator ends the token before it, if there is one (R69). -/
theorem tokensFrom_append_separator {c : Char} (hc : separator c = true) (cur xs ys : Text) :
    tokensFrom cur (xs ++ c :: ys) = tokensFrom cur xs ++ tokens ys := by
  induction xs generalizing cur with
  | nil =>
    rw [List.nil_append, tokensFrom, tokensFrom, if_pos hc, tokens]
    split_ifs <;> rfl
  | cons x xs ih =>
    rw [List.cons_append, tokensFrom, tokensFrom, ih, ih]
    split_ifs <;> rfl

/-- A non-empty run of token characters. -/
def IsToken (t : Text) : Prop := t ≠ [] ∧ ∀ c ∈ t, TokenChar c

theorem isToken_of_mem_tokensFrom {cur l t : Text} (hcur : ∀ c ∈ cur, TokenChar c) (ht : t ∈ tokensFrom cur l) :
    IsToken t := by
  induction l generalizing cur with
  | nil =>
    rw [tokensFrom] at ht
    split_ifs at ht with hnil
    · cases ht
    · rw [List.mem_singleton.1 ht]
      exact ⟨hnil, hcur⟩
  | cons c cs ih =>
    rw [tokensFrom] at ht
    split_ifs at ht with hsep hnil
    · exact ih (List.forall_mem_nil _) ht
    · obtain rfl | ht := List.mem_cons.1 ht
      · exact ⟨hnil, hcur⟩
      · exact ih (List.forall_mem_nil _) ht
    · have hc : TokenChar c := separator_eq_false_iff.1 (Bool.not_eq_true _ ▸ hsep)
      exact ih (List.forall_mem_append.2 ⟨hcur, List.forall_mem_singleton.2 hc⟩) ht

/-- Settles O45: the tokens are gathered character by character, and the gathered run never holds a separator. -/
theorem tokensAreMaximalRuns : Obligations.TokensAreMaximalRuns := by
  unfold Obligations.TokensAreMaximalRuns
  refine ⟨rfl, fun t hne ht => ?_, fun xs ys c hc => ?_, fun l t ht => ?_⟩
  · exact tokens_singleton hne fun c hc => separator_eq_false_iff.2 (ht c hc)
  · exact tokensFrom_append_separator (separator_iff_not_tokenChar.2 hc) [] xs ys
  · exact isToken_of_mem_tokensFrom (List.forall_mem_nil _) ht

/-! ### The checks before pass 1 -/

theorem unsupportedChar_iff {c : Char} : unsupportedChar c = true ↔ RefusedWhitespace c := by
  rw [unsupportedChar, Bool.or_eq_true, Bool.or_eq_true, decide_eq_true_iff, decide_eq_true_iff, decide_eq_true_iff,
    eq_iff_toNat_eq, eq_iff_toNat_eq, eq_iff_toNat_eq, or_assoc]
  rfl

theorem any_unsupportedChar_iff {l : Text} : l.any unsupportedChar = true ↔ ∃ c ∈ l, RefusedWhitespace c := by
  simp only [List.any_eq_true, unsupportedChar_iff]

/-- The lexer's search is the library's, counting from `k`. -/
theorem firstUnsupported_eq (k : Nat) (ls : List Text) :
    firstUnsupported k ls = (ls.findIdx? (·.any unsupportedChar)).map (k + ·) := by
  induction ls generalizing k with
  | nil => rfl
  | cons l ls ih =>
    rw [firstUnsupported, List.findIdx?_cons, ih]
    split_ifs
    · rfl
    · simp [Function.comp_def, Nat.add_comm, Nat.add_left_comm]

theorem firstUnsupported_eq_none {ls : List Text} (h : ∀ l ∈ ls, ∀ c ∈ l, ¬ RefusedWhitespace c) :
    firstUnsupported 0 ls = none := by
  rw [firstUnsupported_eq, Option.map_eq_none_iff, List.findIdx?_eq_none_iff]
  intro l hl
  rw [← Bool.not_eq_true, any_unsupportedChar_iff]
  rintro ⟨c, hc, hrefused⟩
  exact h l hl c hc hrefused

theorem firstUnsupported_eq_some {ls : List Text} {k : Nat} {l : Text} (hl : ls[k]? = some l)
    (hrefused : ∃ c ∈ l, RefusedWhitespace c)
    (hbefore : ∀ j l', j < k → ls[j]? = some l' → ∀ c ∈ l', ¬ RefusedWhitespace c) :
    firstUnsupported 0 ls = some k := by
  obtain ⟨hk, rfl⟩ := List.getElem?_eq_some_iff.1 hl
  have hfind : ls.findIdx? (·.any unsupportedChar) = some k := by
    refine List.findIdx?_eq_some_iff_getElem.2 ⟨hk, any_unsupportedChar_iff.2 hrefused, fun j hj => ?_⟩
    rw [any_unsupportedChar_iff]
    rintro ⟨c, hc, hrefused⟩
    exact hbefore j _ hj (List.getElem?_eq_getElem _) c hc hrefused
  rw [firstUnsupported_eq, hfind, Option.map_some, Nat.zero_add]

section
variable {P : Params} {cs : Text}

theorem prepare_of_unsupported {k : Nat} (h : firstUnsupported 0 (lines cs) = some k) :
    prepare P (some cs) = .error { kind := .unsupportedWhitespace, info := some k } := by
  rw [prepare, h]
  rfl

/-- Without a refused character only the number of lines is left to check (R68, R77). -/
theorem prepare_of_supported (h : ∀ l ∈ lines cs, ∀ c ∈ l, ¬ RefusedWhitespace c) :
    prepare P (some cs) =
      if P.n < (lines cs).length then .error { kind := .memoryOverflow, info := some P.n } else .ok (lines cs) := by
  rw [prepare, firstUnsupported_eq_none h]

theorem assemble_of_prepare_error {src : Option Text} {e : AsmError} (h : prepare P src = .error e) :
    assemble P src = .error e := by
  rw [assemble, h]
  rfl

end

/-- Settles O43: the assembly ends with the first check that fails. -/
theorem sourceChecksComeInOrder : Obligations.SourceChecksComeInOrder := by
  unfold Obligations.SourceChecksComeInOrder
  intro P
  refine ⟨rfl, fun cs k l hl hrefused hbefore => ?_, fun cs h hlong => ?_, fun cs h hle => ?_⟩
  · exact assemble_of_prepare_error (prepare_of_unsupported (firstUnsupported_eq_some hl hrefused hbefore))
  · exact assemble_of_prepare_error ((prepare_of_supported h).trans (if_pos hlong))
  · exact (prepare_of_supported h).trans (if_neg (Nat.not_lt.2 hle))

/-! ### The table's capacity -/

/-- A table with a free entry takes a line's label (R74). -/
theorem declared_of_lt {cap : Nat} {tab : List Symbol} (h : tab.length < cap) (k : Nat) (ts : List Text) :
    ∃ tab', declared cap k tab ts = some tab' ∧ tab'.length ≤ tab.length + 1 := by
  cases hd : declared cap k tab ts with
  | some tab' =>
    refine ⟨tab', rfl, ?_⟩
    obtain rfl | ⟨t, -, -, -, rfl⟩ := declared_cases hd <;> simp
  | none =>
    cases ts with
    | nil => cases hd
    | cons t ts =>
      rw [declared, insertSymbol, if_neg (Nat.ne_of_lt h)] at hd
      split at hd <;> cases hd

/-- Pass 1 adds at most one entry per line, so it succeeds where that many are free (R79). -/
theorem declaredFrom_of_le {cap : Nat} {tab : List Symbol} {ls : List Text} (h : tab.length + ls.length ≤ cap)
    (k : Nat) : ∃ tab', declaredFrom cap k tab ls = some tab' ∧ tab'.length ≤ tab.length + ls.length := by
  induction ls generalizing k tab with
  | nil => exact ⟨tab, rfl, le_rfl⟩
  | cons l ls ih =>
    rw [List.length_cons] at h ⊢
    obtain ⟨tab₁, hline, hlen₁⟩ := declared_of_lt (cap := cap) (tab := tab) (by omega) k (tokens l)
    obtain ⟨tab', hrest, hlen⟩ := ih (tab := tab₁) (by omega) (k + 1)
    exact ⟨tab', by rw [declaredFrom, hline, Option.bind_some, hrest], by omega⟩

/-- From the thirteen mnemonics, pass 1 has room for one label per line (R72, R74). -/
theorem pass1_of_capacity {P : Params} {ls : List Text} (h : 13 + ls.length ≤ P.symtabCap) :
    ∃ r, pass1 P ls AsmRegs.reset = .ok r ∧ r.symtab.length ≤ 13 + ls.length := by
  obtain ⟨tab, hd, hlen⟩ := declaredFrom_of_le (tab := AsmRegs.reset.symtab) h 0
  have hpass := pass1_symtab P ls AsmRegs.reset
  rw [hd] at hpass
  obtain ⟨r, hr, rfl⟩ := hpass
  exact ⟨r, hr, hlen⟩

/-- A label that the full table cannot take is refused with its line (R74). -/
theorem pass1Token_of_full {P : Params} {r : AsmRegs} {t : Text} (hnew : lookup t r.symtab = none)
    (hfirst : r.slotCount = 0) (hfull : r.symtab.length = P.symtabCap) :
    pass1Token P r t = .error { kind := .symbolTableFull, info := some r.line } := by
  simp only [pass1Token, hnew]
  rw [if_pos hfirst, insertSymbol, if_pos hfull]
  rfl

/-! ### The errors of the other stages -/

theorem prepare_error_kind {P : Params} {src : Option Text} {e : AsmError} (h : prepare P src = .error e) :
    e.kind = .sourceNotFound ∨ e.kind = .unsupportedWhitespace ∨ e.kind = .memoryOverflow := by
  cases src with
  | none => injection h with h; exact .inl (h ▸ rfl)
  | some cs =>
    rw [prepare] at h
    split at h
    · injection h with h; exact .inr (.inl (h ▸ rfl))
    · split_ifs at h
      injection h with h
      exact .inr (.inr (h ▸ rfl))

/-- The kinds of the errors that pass 2 raises (R82 to R88). -/
inductive Pass2ErrorKind : AsmErrorKind → Prop
  | tooManyTokens : Pass2ErrorKind .tooManyTokens
  | expectedMnemonic : Pass2ErrorKind .expectedMnemonic
  | undefinedSymbol : Pass2ErrorKind .undefinedSymbol
  | missingOperand : Pass2ErrorKind .missingOperand
  | wordOutOfRange : Pass2ErrorKind .wordOutOfRange

section
variable {r : AsmRegs} {t : Text} {e : AsmError}

theorem opSlot_error (h : opSlot r t = .error e) : e = raiseAt .expectedMnemonic r.line := by
  rw [opSlot] at h
  split at h
  · split at h
    · cases h
    · injection h with h; exact h.symm
  · injection h with h; exact h.symm

theorem labelSlot_error (h : labelSlot r t = .error e) : e = raiseAt .expectedMnemonic r.line := by
  rw [labelSlot] at h
  split at h
  · split at h
    · cases h
    · exact opSlot_error h
  · cases h

theorem resolve_error (h : resolve r t = .error e) : e = raiseAt .undefinedSymbol r.line := by
  rw [resolve] at h
  split at h
  · cases h
  · split at h
    · cases h
    · injection h with h; exact h.symm

theorem dataSlot_error (h : dataSlot r t = .error e) : e = raiseAt .undefinedSymbol r.line := by
  rw [dataSlot] at h
  cases hr : resolve r t with
  | ok v => rw [hr] at h; cases h
  | error e' =>
    rw [hr] at h
    injection h with h
    exact h ▸ resolve_error hr

theorem pass2Token_error_kind (h : pass2Token r t = .error e) : Pass2ErrorKind e.kind := by
  rw [pass2Token] at h
  split at h
  · rw [labelSlot_error h]; exact .expectedMnemonic
  · rw [opSlot_error h]; exact .expectedMnemonic
  · rw [dataSlot_error h]; exact .undefinedSymbol
  · injection h with h
    rw [← h]
    exact .tooManyTokens

theorem pass2Tokens_error_kind {ts : List Text} (h : pass2Tokens r ts = .error e) : Pass2ErrorKind e.kind := by
  induction ts generalizing r with
  | nil => cases h
  | cons t ts ih =>
    rw [pass2Tokens] at h
    cases ht : pass2Token r t with
    | error e' =>
      rw [ht] at h
      injection h with h
      exact h ▸ pass2Token_error_kind ht
    | ok r₁ =>
      rw [ht] at h
      exact ih h

theorem lineWord_error_kind (h : lineWord r = .error e) : Pass2ErrorKind e.kind := by
  rw [lineWord] at h
  split_ifs at h <;> injection h with h <;> rw [← h]
  · exact .missingOperand
  · exact .wordOutOfRange

theorem pass2Lines_error_kind {ls : List Text} {k : Nat} {m : Memory} (h : pass2Lines k r m ls = .error e) :
    Pass2ErrorKind e.kind := by
  induction ls generalizing k r m with
  | nil => cases h
  | cons l ls ih =>
    rw [pass2Lines] at h
    cases ht : pass2Tokens (startLine r k) (tokens l) with
    | error e' =>
      rw [ht] at h
      injection h with h
      exact h ▸ pass2Tokens_error_kind ht
    | ok r₁ =>
      rw [ht] at h
      change (lineWord r₁).bind _ = _ at h
      cases hw : lineWord r₁ with
      | error e' =>
        rw [hw] at h
        injection h with h
        exact h ▸ lineWord_error_kind hw
      | ok w =>
        rw [hw] at h
        exact ih h

theorem pass2_error_kind {ls : List Text} {m : Memory} (h : pass2 ls r m = .error e) : Pass2ErrorKind e.kind :=
  pass2Lines_error_kind h

end

/-- An assembly ends with the error of the stage that failed (R76). -/
theorem assemble_error_cases {P : Params} {src : Option Text} {e : AsmError} (h : assemble P src = .error e) :
    prepare P src = .error e ∨
    ∃ ls, prepare P src = .ok ls ∧
      (pass1 P ls AsmRegs.reset = .error e ∨ ∃ r, pass1 P ls AsmRegs.reset = .ok r ∧ pass2 ls r [] = .error e) := by
  rw [assemble] at h
  cases hp : prepare P src with
  | error e' => rw [hp] at h; injection h with h; exact .inl (congrArg _ h)
  | ok ls =>
    rw [hp] at h
    change (pass1 P ls AsmRegs.reset).bind _ = _ at h
    refine .inr ⟨ls, rfl, ?_⟩
    cases h1 : pass1 P ls AsmRegs.reset with
    | error e' => rw [h1] at h; injection h with h; exact .inl (congrArg _ h)
    | ok r =>
      rw [h1] at h
      change (pass2 ls r []).bind _ = _ at h
      refine .inr ⟨r, rfl, ?_⟩
      cases h2 : pass2 ls r [] with
      | error e' => rw [h2] at h; injection h with h; exact congrArg _ h
      | ok res => rw [h2] at h; cases h

/-- With room for the mnemonics and one label per cell, the table never fills: the check on the lines comes first (R76,
R77). -/
theorem assemble_error_kind_ne_symbolTableFull {P : Params} (hcap : 13 + P.n ≤ P.symtabCap) {src : Option Text}
    {e : AsmError} (h : assemble P src = .error e) : e.kind ≠ .symbolTableFull := by
  intro hfull
  obtain hp | ⟨ls, hp, h1 | ⟨r, -, h2⟩⟩ := assemble_error_cases h
  · simpa [hfull] using prepare_error_kind hp
  · obtain ⟨cs, -, -, hlen⟩ := prepare_ok hp
    obtain ⟨r, hr, -⟩ := pass1_of_capacity (P := P) (ls := ls) (by omega)
    rw [hr] at h1
    cases h1
  · have hkind := pass2_error_kind h2
    rw [hfull] at hkind
    cases hkind

/-- Settles O48: pass 1 appends at most one label per line, and no other stage raises this error. -/
theorem symbolTableFullIsUnreachableWithinCapacity : Obligations.SymbolTableFullIsUnreachableWithinCapacity := by
  unfold Obligations.SymbolTableFullIsUnreachableWithinCapacity
  exact ⟨fun _ _ => pass1_of_capacity, fun _ _ _ => pass1Token_of_full,
    fun _ _ h => assemble_error_kind_ne_symbolTableFull (P := Config.hardware) (by decide) h rfl⟩

end Sys2Proof.Proofs
end

section
/-! PROOFS. The statements about the assembler (41_assembler.md): the grammar and the value of an integer literal, what
pass 2 makes of one line, what the two passes make of a source, and that the machine's steps run them. -/

namespace Sys2Proof.Proofs

open Sys2Proof.Machine Sys2Proof.Claims

/-! ### Integer literals (R87) -/

theorem digitValue_eq_some {c : Char} {d : Nat} : digitValue c = some d ↔ DigitChar c ∧ d = c.toNat - 48 := by
  have hdigit : ('0' ≤ c ∧ c ≤ '9') ↔ DigitChar c := Iff.rfl
  rw [digitValue]
  split_ifs with h
  · rw [Option.some.injEq, eq_comm]
    exact ⟨fun hd => ⟨hdigit.1 h, hd⟩, And.right⟩
  · exact ⟨nofun, fun hd => absurd (hdigit.2 hd.1) h⟩

/-- Only digits have a value, and it grows as `spelled` says. -/
theorem digitsValue_eq_some {t : Text} {v n : Nat} :
    digitsValue v t = some n ↔ (∀ c ∈ t, DigitChar c) ∧ n = t.foldl (fun v c => v * 10 + (c.toNat - 48)) v := by
  induction t generalizing v with
  | nil => simp [digitsValue, eq_comm]
  | cons c cs ih =>
    rw [digitsValue, List.forall_mem_cons, List.foldl_cons, and_assoc]
    cases hc : digitValue c with
    | none =>
      refine ⟨nofun, fun h => ?_⟩
      rw [digitValue_eq_some.2 ⟨h.1, rfl⟩] at hc
      cases hc
    | some d =>
      obtain ⟨hdigit, rfl⟩ := digitValue_eq_some.1 hc
      exact ih.trans (and_iff_right hdigit).symm

theorem unsignedValue_eq_some {t : Text} {n : Nat} :
    unsignedValue t = some n ↔ t ≠ [] ∧ (∀ c ∈ t, DigitChar c) ∧ n = spelled t := by
  cases t with
  | nil => simp [unsignedValue]
  | cons c cs => exact digitsValue_eq_some.trans (and_iff_right (List.cons_ne_nil c cs)).symm

theorem intLiteral_plus (ds : Text) : intLiteral ('+' :: ds) = (unsignedValue ds).map fun n : Nat => (n : Int) := rfl

theorem intLiteral_minus (ds : Text) : intLiteral ('-' :: ds) = (unsignedValue ds).map fun n : Nat => -(n : Int) := rfl

/-- A literal is a run of digits, alone or after one sign. -/
theorem intLiteral_eq_some {t : Text} {v : Int} :
    intLiteral t = some v ↔ ∃ (ds : Text) (n : Nat), unsignedValue ds = some n ∧
      ((t = ds ∨ t = '+' :: ds) ∧ v = (n : Int) ∨ t = '-' :: ds ∧ v = -(n : Int)) := by
  constructor
  · intro h
    cases t with
    | nil => cases h
    | cons c cs =>
      rw [intLiteral] at h
      split_ifs at h with hminus hplus
      all_goals obtain ⟨n, hn, rfl⟩ := Option.map_eq_some_iff.1 h
      · exact ⟨cs, n, hn, .inr ⟨by rw [hminus], rfl⟩⟩
      · exact ⟨cs, n, hn, .inl ⟨.inr (by rw [hplus]), rfl⟩⟩
      · exact ⟨c :: cs, n, hn, .inl ⟨.inl rfl, rfl⟩⟩
  · rintro ⟨ds, n, hn, ⟨rfl | rfl, rfl⟩ | ⟨rfl, rfl⟩⟩
    · exact intLiteral_of_unsigned hn
    · rw [intLiteral_plus, hn, Option.map_some]
    · rw [intLiteral_minus, hn, Option.map_some]

theorem intLiteral_decimalText (v : Int) : intLiteral (decimalText v) = some v := by
  rw [decimalText]
  split_ifs with hv
  · rw [intLiteral_minus, unsignedValue_decimalDigits, Option.map_some, Option.some.injEq]
    omega
  · rw [intLiteral_of_unsigned (unsignedValue_decimalDigits _), Option.some.injEq]
    omega

/-- Settles O46: the lexer reads the digits after the sign from the left, as `spelled` does. -/
theorem integerLiteralsHaveTheirExactValue : Obligations.IntegerLiteralsHaveTheirExactValue := by
  unfold Obligations.IntegerLiteralsHaveTheirExactValue
  refine ⟨fun t v => intLiteral_eq_some.trans ⟨?_, ?_⟩, intLiteral_decimalText⟩
  · rintro ⟨ds, n, hn, hv⟩
    obtain ⟨hne, hdigits, rfl⟩ := unsignedValue_eq_some.1 hn
    exact ⟨ds, hne, hdigits, hv⟩
  · rintro ⟨ds, hne, hdigits, hv⟩
    exact ⟨ds, spelled ds, unsignedValue_eq_some.2 ⟨hne, hdigits, rfl⟩, hv⟩

/-! ### What pass 2 makes of one line (R81 to R88) -/

section
variable {r r' : AsmRegs} {k : Nat} {t l m x : Text} {ts rest : List Text} {e e' : Symbol} {err : AsmError}

theorem pass2Tokens_cons_of_ok (h : pass2Token r t = .ok r') : pass2Tokens r (t :: ts) = pass2Tokens r' ts := by
  rw [pass2Tokens, h]
  rfl

theorem pass2Tokens_cons_of_error (h : pass2Token r t = .error err) : pass2Tokens r (t :: ts) = .error err := by
  rw [pass2Tokens, h]
  rfl

theorem lineResult_of_ok (h : pass2Tokens (startLine r k) ts = .ok r') : lineResult r k ts = lineWord r' := by
  rw [lineResult, h]
  rfl

theorem lineResult_of_error (h : pass2Tokens (startLine r k) ts = .error err) : lineResult r k ts = .error err := by
  rw [lineResult, h]
  rfl

/-- The pass registers once a label has opened line `k` (R82). -/
def afterLabel (r : AsmRegs) (k : Nat) : AsmRegs := { startLine r k with slot := .op }

theorem pass2Token_label (hl : lookup l r.symtab = some e) (hk : e.kind = .label) :
    pass2Token (startLine r k) l = .ok (afterLabel r k) := by
  simp [pass2Token, startLine, labelSlot, hl, hk, afterLabel]

/-- After a label the mnemonic leaves the registers that it leaves at the head of the line (R82, R83). -/
theorem pass2Token_afterLabel_mnemonic (hm : lookup m r.symtab = some e) (hk : e.kind = .mnemonic) :
    pass2Token (afterLabel r k) m = .ok (afterMnemonic r k m e.value) := by
  simp [pass2Token, afterLabel, startLine, opSlot, hm, hk, afterMnemonic]

/-- What is no mnemonic cannot be a line's Op (R83). -/
theorem opSlot_of_no_mnemonic (ht : ∀ e, lookup t r.symtab = some e → e.kind = .label) :
    opSlot r t = .error (raiseAt .expectedMnemonic r.line) := by
  rw [opSlot]
  split
  next e hl => rw [ht e hl]
  next => rfl

theorem pass2Token_operand_of_unresolved (hs : r.slot = .data) (hx : resolve r x = .error err) :
    pass2Token r x = .error err := by
  rw [pass2Token, hs]
  change dataSlot r x = _
  rw [dataSlot, hx]
  rfl

theorem resolve_of_lookup (hl : lookup x r.symtab = some e) : resolve r x = .ok e.value := by
  rw [resolve, hl]

theorem resolve_of_unresolved (hl : lookup x r.symtab = none) (hv : intLiteral x = none) :
    resolve r x = .error (raiseAt .undefinedSymbol r.line) := by
  rw [resolve, hl, hv]

/-- A line without a mnemonic has nothing to check. -/
theorem lineWord_of_no_mnemonic (hm : r.opm = none) (hw : r.word = 0) : lineWord r = .ok 0 := by
  rw [lineWord, lacksOperand, hm, hw]
  rfl

/-- A line that ends after its mnemonic `m` of value `v` (R63, R88). -/
theorem lineWord_afterMnemonic (r : AsmRegs) (k : Nat) (m : Text) (v : Int) :
    lineWord (afterMnemonic r k m v) =
      if m ∈ operandRequired then .error { kind := .missingOperand, info := some k } else checkedWord k v := by
  have hlacks : lacksOperand (afterMnemonic r k m v) = decide (m ∈ operandRequired) := by
    simp [lacksOperand, afterMnemonic, startLine]
  simp only [lineWord, hlacks, decide_eq_true_iff]
  rfl

/-- A label opens a line and emits nothing (R82). -/
theorem lineResult_label (hl : lookup l r.symtab = some e) (hk : e.kind = .label) : lineResult r k [l] = .ok 0 :=
  (lineResult_of_ok (pass2Tokens_cons_of_ok (pass2Token_label hl hk))).trans (lineWord_of_no_mnemonic rfl rfl)

theorem lineResult_label_mnemonic (hl : lookup l r.symtab = some e) (hk : e.kind = .label)
    (hm : lookup m r.symtab = some e') (hk' : e'.kind = .mnemonic) :
    lineResult r k (l :: m :: rest) = lineResult r k (m :: rest) := by
  rw [lineResult, lineResult, pass2Tokens_cons_of_ok (pass2Token_label hl hk),
    pass2Tokens_cons_of_ok (pass2Token_afterLabel_mnemonic hm hk'), pass2Tokens_cons_of_ok (pass2Token_mnemonic hm hk')]

theorem lineResult_label_no_mnemonic (hl : lookup l r.symtab = some e) (hk : e.kind = .label)
    (ht : ∀ e, lookup t r.symtab = some e → e.kind = .label) :
    lineResult r k (l :: t :: rest) = .error { kind := .expectedMnemonic, info := some k } := by
  apply lineResult_of_error
  rw [pass2Tokens_cons_of_ok (pass2Token_label hl hk)]
  exact pass2Tokens_cons_of_error (opSlot_of_no_mnemonic (r := afterLabel r k) ht)

theorem lineResult_mnemonic (hm : lookup m r.symtab = some e) (hk : e.kind = .mnemonic) :
    lineResult r k [m] =
      if m ∈ operandRequired then .error { kind := .missingOperand, info := some k } else checkedWord k e.value :=
  (lineResult_of_ok (pass2Tokens_cons_of_ok (pass2Token_mnemonic hm hk))).trans (lineWord_afterMnemonic r k m e.value)

/-- An operand that resolves to nothing ends the line there, even where it would be ignored (R84, R86). -/
theorem lineResult_unresolved_operand (hm : lookup m r.symtab = some e) (hk : e.kind = .mnemonic)
    (hl : lookup x r.symtab = none) (hv : intLiteral x = none) :
    lineResult r k (m :: x :: rest) = .error { kind := .undefinedSymbol, info := some k } := by
  have hx : resolve (afterMnemonic r k m e.value) x = .error (raiseAt .undefinedSymbol k) := resolve_of_unresolved hl hv
  apply lineResult_of_error
  rw [pass2Tokens_cons_of_ok (pass2Token_mnemonic hm hk)]
  exact pass2Tokens_cons_of_error (pass2Token_operand_of_unresolved rfl hx)

/-- After an operand that resolves the line has no slot left (R85). -/
theorem lineResult_extra_token {y : Text} {v : Int} (hm : lookup m r.symtab = some e) (hk : e.kind = .mnemonic)
    (hx : resolve (startLine r k) x = .ok v) :
    lineResult r k (m :: x :: y :: rest) = .error { kind := .tooManyTokens, info := some k } := by
  apply lineResult_of_error
  rw [pass2Tokens_cons_of_ok (pass2Token_mnemonic hm hk),
    pass2Tokens_cons_of_ok (pass2Token_operand (r := afterMnemonic r k m e.value) rfl hx)]
  exact pass2Tokens_cons_of_error rfl

end

/-- Settles O49: a label only moves the line to its Op slot, where a mnemonic must stand. -/
theorem leadingLabelEmitsNothing : Obligations.LeadingLabelEmitsNothing := by
  unfold Obligations.LeadingLabelEmitsNothing
  intro r k l e hl hk
  exact ⟨lineResult_label hl hk, fun _ _ _ hm hk' => lineResult_label_mnemonic hl hk hm hk',
    fun _ _ ht => lineResult_label_no_mnemonic hl hk ht⟩

/-- Settles O50: the line's end checks for the operand, then the range. -/
theorem lineWithoutOperandEmitsValueOrIsRefused : Obligations.LineWithoutOperandEmitsValueOrIsRefused := by
  unfold Obligations.LineWithoutOperandEmitsValueOrIsRefused
  exact fun r k => ⟨(lineResult_of_ok rfl).trans (lineWord_of_no_mnemonic rfl rfl), fun _ _ => lineResult_mnemonic⟩

/-- Settles O51, by what the operand resolves to: an entry of the table, a literal, or nothing. -/
theorem lineWithOperandAddsItUnlessIgnored : Obligations.LineWithOperandAddsItUnlessIgnored := by
  unfold Obligations.LineWithOperandAddsItUnlessIgnored
  intro r k m x e hm hk
  refine ⟨fun e' hx => ?_, fun v hl hv => ?_, fun rest hl hv => ?_⟩
  · exact lineResult_operand hm hk (resolve_of_lookup (r := startLine r k) hx)
  · exact lineResult_operand hm hk (resolve_of_intLiteral (r := startLine r k) hl hv)
  · exact lineResult_unresolved_operand hm hk hl hv

theorem exists_resolve {r : AsmRegs} {x : Text} (h : lookup x r.symtab ≠ none ∨ intLiteral x ≠ none) :
    ∃ v, resolve r x = .ok v := by
  cases hl : lookup x r.symtab with
  | some e => exact ⟨e.value, resolve_of_lookup hl⟩
  | none =>
    obtain ⟨v, hv⟩ := Option.ne_none_iff_exists'.1 (h.resolve_left (not_not.2 hl))
    exact ⟨v, resolve_of_intLiteral hl hv⟩

/-- Settles O52: the operand resolves and fills the Data slot; a label before the mnemonic changes nothing. -/
theorem tokenAfterOperandIsRefused : Obligations.TokenAfterOperandIsRefused := by
  unfold Obligations.TokenAfterOperandIsRefused
  intro r k m x y e rest hm hk hx
  obtain ⟨v, hv⟩ := exists_resolve (r := startLine r k) hx
  have hextra := lineResult_extra_token (y := y) (rest := rest) hm hk hv
  exact ⟨hextra, fun l e' hl hk' => (lineResult_label_mnemonic hl hk' hm hk).trans hextra⟩

/-- A mnemonic that requires its operand adds it (R63, R84). -/
theorem not_mem_operandIgnored {name : Text} (h : name ∈ operandRequired) : name ∉ operandIgnored := by
  revert name
  decide

theorem lookup_of_mem_mnemonicTable {name : Text} {base : Int} (h : (name, base) ∈ mnemonicTable) :
    lookup name initializeSymtab = some { kind := .mnemonic, key := name, value := base } := by
  have hall : ∀ e ∈ mnemonicTable,
      lookup e.1 initializeSymtab = some { kind := .mnemonic, key := e.1, value := e.2 } := by decide
  exact hall (name, base) h

/-- Settles O55: the operand's decimal text is its literal, of any size, and the line's sum alone is checked. -/
theorem outOfRangeOperandCarriesIntoTheOpcode : Obligations.OutOfRangeOperandCarriesIntoTheOpcode := by
  unfold Obligations.OutOfRangeOperandCarriesIntoTheOpcode
  intro P name v base hP hreq hmem
  have hline := assemble_sourceLine hP (lookup_of_mem_mnemonicTable hmem) (intLiteral_decimalText v)
  rw [if_neg (not_mem_operandIgnored hreq), checkedWord] at hline
  refine ⟨fun hin => ?_, fun hout => ?_⟩
  · rw [if_pos hin] at hline
    exact ⟨_, hline, Memory.read_write_same Memory.wf_nil 0 _⟩
  · rw [if_neg hout] at hline
    exact hline

/-! ### What pass 1 binds (R79, R80) -/

/-- A line whose first token resolves to nothing declares it (R80). -/
theorem declared_of_unresolved {cap k : Nat} {tab tab' : List Symbol} {t : Text} {ts : List Text}
    (hl : lookup t tab = none) (h : declared cap k tab (t :: ts) = some tab') :
    tab' = tab ++ [{ kind := .label, key := t, value := (k : Int) }] := by
  simp only [declared, hl, insertSymbol] at h
  split_ifs at h
  injection h with h
  exact h.symm

/-- A line binds its first token, unless the table holds it already. -/
theorem lookup_declared {cap k : Nat} {tab tab' : List Symbol} {ts : List Text}
    (h : declared cap k tab ts = some tab') (name : Text) :
    lookup name tab' = (lookup name tab).or
      (if ts.head? = some name then some { kind := .label, key := name, value := (k : Int) } else none) := by
  cases ts with
  | nil =>
    injection h with h
    rw [h, if_neg (by simp), Option.or_none]
  | cons t ts =>
    simp only [List.head?_cons, Option.some.injEq]
    cases hl : lookup t tab with
    | some e =>
      rw [declared_of_lookup hl] at h
      injection h with h
      subst h
      split_ifs with hname
      · rw [← hname, hl, Option.some_or]
      · rw [Option.or_none]
    | none =>
      rw [declared_of_unresolved hl h, lookup_append, lookup, lookup]
      split_ifs with hname
      · obtain rfl : t = name := hname
        rfl
      · rfl

theorem lookup_declaredFrom {cap k : Nat} {tab tab' : List Symbol} {ls : List Text}
    (h : declaredFrom cap k tab ls = some tab') (name : Text) :
    lookup name tab' = (lookup name tab).or
      ((firstDeclaring name k ls).map fun j : Nat => { kind := .label, key := name, value := (j : Int) }) := by
  induction ls generalizing k tab with
  | nil =>
    injection h with h
    rw [h, firstDeclaring, Option.map_none, Option.or_none]
  | cons l ls ih =>
    obtain ⟨tab₁, hline, hrest⟩ := Option.bind_eq_some_iff.1 h
    rw [ih hrest, lookup_declared hline, Option.or_assoc, firstDeclaring]
    split_ifs <;> simp

/-- Settles O47, line by line: a lookup finds what the table held, or else the first line that declares the name. -/
theorem passOneBindsEachLabelToItsFirstLine : Obligations.PassOneBindsEachLabelToItsFirstLine := by
  unfold Obligations.PassOneBindsEachLabelToItsFirstLine
  intro P ls r hr name
  have hlookup : lookup name r.symtab = _ := lookup_declaredFrom (pass1_ok hr) name
  refine ⟨fun e he => ?_, fun hnone => ?_⟩
  · rw [hlookup, AsmRegs.reset, he, Option.some_or]
  · rw [hlookup, AsmRegs.reset, hnone, Option.none_or]

/-! ### What pass 2 writes (R81, R88, R89) -/

section
variable {r r' : AsmRegs} {k : Nat} {l : Text} {ls : List Text} {m m' : Memory} {err : AsmError}

/-- A line of pass 2 hands on only what no line changes, the table and pass 1's counter. -/
theorem startLine_of_pass2Tokens {ts : List Text} (h : pass2Tokens (startLine r k) ts = .ok r') (j : Nat) :
    startLine r' j = startLine r j := by
  obtain ⟨hsymtab, -, hslotCount⟩ := pass2Tokens_keeps h
  rw [startLine, startLine, hsymtab, hslotCount]
  rfl

theorem lineResult_congr (h : startLine r' k = startLine r k) (ts : List Text) :
    lineResult r' k ts = lineResult r k ts := by
  rw [lineResult, lineResult, h]

/-- Pass 2 fails with its first line, or writes that line's word and goes on with registers that make the same of every
later line. -/
theorem pass2Lines_cons (r : AsmRegs) (k : Nat) (m : Memory) (l : Text) (ls : List Text) :
    (∃ err, lineResult r k (tokens l) = .error err ∧ pass2Lines k r m (l :: ls) = .error err) ∨
    ∃ w r', lineResult r k (tokens l) = .ok w ∧ (∀ j ts, lineResult r' j ts = lineResult r j ts) ∧
      pass2Lines k r m (l :: ls) = pass2Lines (k + 1) r' (Memory.write m k w) ls := by
  rw [pass2Lines]
  cases ht : pass2Tokens (startLine r k) (tokens l) with
  | error err => exact .inl ⟨err, lineResult_of_error ht, rfl⟩
  | ok r' =>
    rw [lineResult_of_ok ht]
    change (∃ err, _ ∧ (lineWord r').bind _ = _) ∨ ∃ w r'', _ ∧ _ ∧ (lineWord r').bind _ = _
    cases lineWord r' with
    | error err => exact .inl ⟨err, rfl, rfl⟩
    | ok w => exact .inr ⟨w, r', rfl, fun j => lineResult_congr (startLine_of_pass2Tokens ht j), rfl⟩

/-- Pass 2 writes no cell outside its lines' addresses (R89). -/
theorem pass2Lines_read_of_outside (h : pass2Lines k r m ls = .ok (r', m')) {a : Nat} (ha : a < k ∨ k + ls.length ≤ a) :
    Memory.read m' a = Memory.read m a := by
  induction ls generalizing k r m with
  | nil =>
    injection h with h
    injection h with _ hm
    rw [hm]
  | cons l ls ih =>
    rw [List.length_cons] at ha
    obtain ⟨err, -, herr⟩ | ⟨w, r₁, -, -, hrest⟩ := pass2Lines_cons r k m l ls
    · rw [herr] at h
      cases h
    · rw [hrest] at h
      rw [ih h (by omega), Memory.read_write_of_ne _ _ (by omega)]

/-- Where pass 2 succeeds, each line's own word stands at the line's address (R88, R89). -/
theorem pass2Lines_read (h : pass2Lines k r m ls = .ok (r', m')) (hwf : Memory.wf m = true) {j : Nat}
    (hl : ls[j]? = some l) : lineResult r (k + j) (tokens l) = .ok (Memory.read m' (k + j)) := by
  induction ls generalizing k r m j with
  | nil => cases hl
  | cons l₀ ls ih =>
    obtain ⟨err, -, herr⟩ | ⟨w, r₁, hline, hsame, hrest⟩ := pass2Lines_cons r k m l₀ ls
    · rw [herr] at h
      cases h
    · rw [hrest] at h
      cases j with
      | zero =>
        injection hl with hl
        rw [Nat.add_zero, ← hl, hline, pass2Lines_read_of_outside h (.inl (Nat.lt_succ_self k)),
          Memory.read_write_same hwf]
      | succ j =>
        rw [← hsame, ← Nat.add_assoc, Nat.add_right_comm]
        exact ih h (Memory.wf_write hwf k w) hl

/-- Where pass 2 fails, some line has no word, and its error is that of the first such line (R134). -/
theorem pass2Lines_error (h : pass2Lines k r m ls = .error err) :
    ∃ j l, ls[j]? = some l ∧ lineResult r (k + j) (tokens l) = .error err ∧
      ∀ i l', i < j → ls[i]? = some l' → ∃ w, lineResult r (k + i) (tokens l') = .ok w := by
  induction ls generalizing k r m with
  | nil => cases h
  | cons l ls ih =>
    obtain ⟨err', hline, herr⟩ | ⟨w, r₁, hline, hsame, hrest⟩ := pass2Lines_cons r k m l ls
    · rw [herr] at h
      injection h with h
      exact ⟨0, l, rfl, hline.trans (congrArg _ h), fun i _ hi => absurd hi (Nat.not_lt_zero i)⟩
    · rw [hrest] at h
      obtain ⟨j, l', hl', hj, hbefore⟩ := ih h
      simp only [hsame, Nat.add_assoc, Nat.add_comm 1] at hj hbefore
      refine ⟨j + 1, l', hl', hj, fun i l'' hi hl'' => ?_⟩
      cases i with
      | zero =>
        injection hl'' with hl''
        exact ⟨w, hl'' ▸ hline⟩
      | succ i => exact hbefore i l'' (Nat.lt_of_succ_lt_succ hi) hl''

end

/-- Settles O53: pass 2 goes through the lines in order and starts each from the same table. -/
theorem passTwoWritesEachLineOrReportsTheFirstFailure : Obligations.PassTwoWritesEachLineOrReportsTheFirstFailure := by
  unfold Obligations.PassTwoWritesEachLineOrReportsTheFirstFailure
  intro ls r
  have hline : ∀ k ts, lineResult { r with line := 0 } k ts = lineResult r k ts := fun _ => lineResult_congr rfl
  refine ⟨fun r' m h => ⟨fun k l hl => ?_, fun k hk => ?_⟩, fun e h => ?_⟩
  · simpa [hline] using pass2Lines_read h Memory.wf_nil hl
  · exact pass2Lines_read_of_outside h (.inr (by omega))
  · simpa [hline] using pass2Lines_error h

/-! ### The machine's assembly (R76, R145) -/

/-- An assembly that answers an image has passed all three stages (R76). -/
theorem assemble_ok {P : Params} {src : Option Text} {m : Memory} (h : assemble P src = .ok m) :
    ∃ ls r r', prepare P src = .ok ls ∧ pass1 P ls AsmRegs.reset = .ok r ∧ pass2 ls r [] = .ok (r', m) := by
  rw [assemble] at h
  cases hp : prepare P src with
  | error e => rw [hp] at h; cases h
  | ok ls =>
    rw [hp] at h
    change (pass1 P ls AsmRegs.reset).bind _ = _ at h
    cases h1 : pass1 P ls AsmRegs.reset with
    | error e => rw [h1] at h; cases h
    | ok r =>
      rw [h1] at h
      change (pass2 ls r []).bind _ = _ at h
      cases h2 : pass2 ls r [] with
      | error e => rw [h2] at h; cases h
      | ok res =>
        rw [h2] at h
        injection h with h
        exact ⟨ls, r, res.1, rfl, h1, by rw [h2, ← h]⟩

section
variable {s : State} {ls : List Text} {r r' : AsmRegs} {m : Memory} {e : AsmError}

/-- The lines the checks let through are the ones both passes walk (R78). -/
theorem sourceLines_of_prepare (h : prepare s.params s.src = .ok ls) : s.sourceLines = ls := by
  obtain ⟨cs, hsrc, rfl, -⟩ := prepare_ok h
  rw [State.sourceLines, hsrc]

/-- The state once the source has passed the checks and assembler reset is done. -/
def preparedState (s : State) : State := { s with phase := .pass1, mem := [], asm := AsmRegs.reset }

/-- The state once pass 1 has left the registers `r`. -/
def declaredState (s : State) (r : AsmRegs) : State := { s with phase := .pass2, asm := r }

/-- The state once pass 2 has left the registers `r` and the image `m`. -/
def assembledState (s : State) (r : AsmRegs) (m : Memory) : State := { s with phase := .assembled, asm := r, mem := m }

section
variable (hP : s.params.ok)
include hP

theorem step_source_of_ok (hp : s.phase = .source) (h : prepare s.params s.src = .ok ls) :
    step s = .next (preparedState s) := by
  rw [step, if_neg (not_not.2 hP), hp]
  refine congrArg Host.Outcome.next ?_
  rw [prepareStep, h, preparedState]

theorem step_source_of_error (hp : s.phase = .source) (h : prepare s.params s.src = .error e) :
    step s = .next (s.failAssembly e) := by
  rw [step, if_neg (not_not.2 hP), hp]
  refine congrArg Host.Outcome.next ?_
  rw [prepareStep, h]

theorem step_pass1_of_ok (hp : s.phase = .pass1) (h : pass1 s.params s.sourceLines s.asm = .ok r) :
    step s = .next (declaredState s r) := by
  rw [step, if_neg (not_not.2 hP), hp]
  refine congrArg Host.Outcome.next ?_
  rw [pass1Step, h, declaredState]

theorem step_pass1_of_error (hp : s.phase = .pass1) (h : pass1 s.params s.sourceLines s.asm = .error e) :
    step s = .next (s.failAssembly e) := by
  rw [step, if_neg (not_not.2 hP), hp]
  refine congrArg Host.Outcome.next ?_
  rw [pass1Step, h]

theorem step_pass2_of_ok (hp : s.phase = .pass2) (h : pass2 s.sourceLines s.asm s.mem = .ok (r, m)) :
    step s = .next (assembledState s r m) := by
  rw [step, if_neg (not_not.2 hP), hp]
  refine congrArg Host.Outcome.next ?_
  rw [pass2Step, h, assembledState]

theorem step_pass2_of_error (hp : s.phase = .pass2) (h : pass2 s.sourceLines s.asm s.mem = .error e) :
    step s = .next (s.failAssembly e) := by
  rw [step, if_neg (not_not.2 hP), hp]
  refine congrArg Host.Outcome.next ?_
  rw [pass2Step, h]

/-- A failed assembly has recorded its error, and no step follows it (R129, R132). -/
theorem failAssembly_ends (e : AsmError) :
    (s.failAssembly e).phase = .failed e ∧ completionStatus (s.failAssembly e) = some e.kind.code ∧
      step (s.failAssembly e) = .fault .assemblyFailed := by
  refine ⟨rfl, rfl, ?_⟩
  rw [step, if_neg (not_not.2 (show (s.failAssembly e).params.ok from hP))]
  rfl

end

/-- Four steps run the stages of an assembly that answers an image, and CPU reset (R145). -/
theorem run_of_assemble_ok (hP : s.params.ok) (hp : s.phase = .source) (h : assemble s.params s.src = .ok m) :
    ∃ r r', core.run 4 s = .next (cpuReset (assembledState (declaredState (preparedState s) r) r' m)) := by
  obtain ⟨ls, r, r', hprep, hpass1, hpass2⟩ := assemble_ok h
  obtain rfl := sourceLines_of_prepare hprep
  have hstep1 := step_source_of_ok hP hp hprep
  have hstep2 := step_pass1_of_ok (s := preparedState s) hP rfl hpass1
  have hstep3 := step_pass2_of_ok (s := declaredState (preparedState s) r) hP rfl hpass2
  have hstep4 := step_of_assembled (s := assembledState (declaredState (preparedState s) r) r' m) hP rfl
  exact ⟨r, r', (run_of_next hstep1).trans <| (run_of_next hstep2).trans <| (run_of_next hstep3).trans <|
    run_of_next hstep4⟩

/-- An assembly that answers an error ends with the step of the stage that raised it (R129). -/
theorem run_of_assemble_error (hP : s.params.ok) (hp : s.phase = .source) (h : assemble s.params s.src = .error e) :
    ∃ (k : Nat) (s' : State), k ≤ 3 ∧ s'.params = s.params ∧ core.run k s = .next (s'.failAssembly e) := by
  obtain hprep | ⟨ls, hprep, hstages⟩ := assemble_error_cases h
  · exact ⟨1, s, by decide, rfl, run_of_next (step_source_of_error hP hp hprep)⟩
  obtain rfl := sourceLines_of_prepare hprep
  have hstep1 := step_source_of_ok hP hp hprep
  obtain hpass1 | ⟨r, hpass1, hpass2⟩ := hstages
  · have hstep2 := step_pass1_of_error (s := preparedState s) hP rfl hpass1
    exact ⟨2, preparedState s, by decide, rfl, (run_of_next hstep1).trans (run_of_next hstep2)⟩
  · have hstep2 := step_pass1_of_ok (s := preparedState s) hP rfl hpass1
    have hstep3 := step_pass2_of_error (s := declaredState (preparedState s) r) hP rfl hpass2
    exact ⟨3, declaredState (preparedState s) r, by decide, rfl,
      (run_of_next hstep1).trans <| (run_of_next hstep2).trans (run_of_next hstep3)⟩

end

/-- Settles O42: assembler reset makes the stages' inputs those of `assemble`, whatever stood in the state. -/
theorem machineStepsComputeTheAssembly : Obligations.MachineStepsComputeTheAssembly := by
  unfold Obligations.MachineStepsComputeTheAssembly
  refine fun s hP hp => ⟨fun m h => ?_, fun e h => ?_⟩
  · obtain ⟨r, r', hrun⟩ := run_of_assemble_ok hP hp h
    exact ⟨_, hrun, rfl, rfl, rfl, rfl, rfl, rfl, rfl, rfl, rfl, rfl⟩
  · obtain ⟨k, s', hk, hparams, hrun⟩ := run_of_assemble_error hP hp h
    exact ⟨k, _, hk, hrun, failAssembly_ends (by rwa [hparams]) e⟩

end Sys2Proof.Proofs
end

section
/-! PROOFS. The statements about the CPU's cycle (42_cpu_cycle.md): what the step of a running, a halted or a failed
machine is, said once; the ends of a run; the branch to itself; and that a run is the same whatever the assembler left
beside it. -/

namespace Sys2Proof.Proofs

open Sys2Proof.Machine Sys2Proof.Claims

/-! ### One step, by where the machine stands -/

section
variable {s : State}

theorem step_of_unsupported (hP : ¬ s.params.ok) : step s = .refused .unsupportedParameters := if_pos hP

theorem step_of_failed {e : AsmError} (hP : s.params.ok) (hp : s.phase = .failed e) :
    step s = .fault .assemblyFailed := by
  rw [step, if_neg (not_not.2 hP), hp]

theorem step_of_execution (hP : s.params.ok) (hp : s.phase = .execution) : step s = executionStep s := by
  rw [step, if_neg (not_not.2 hP), hp]

theorem step_of_running (hP : s.params.ok) (hp : s.phase = .execution) (hr : s.run = .running) :
    step s = cpuStep s := by
  rw [step_of_execution hP hp, executionStep, hr]

theorem step_of_halted (hP : s.params.ok) (hp : s.phase = .execution) (hr : s.run = .halted) :
    step s = .fault .halted := by
  rw [step_of_execution hP hp, executionStep, hr]

theorem cpuStep_of_raises {r : Raise} (hf : fetch s = .raises r) : cpuStep s = .next (s.takeError s.pc r) := by
  rw [cpuStep, hf]

theorem fetch_of_negative (hpc : s.pc < s.params.n) (hw : InWord (Memory.read s.mem s.pc))
    (hn : Memory.read s.mem s.pc < 0) :
    fetch s = .raises ⟨.invalidInstructionWord, Memory.read s.mem s.pc⟩ := by
  rw [fetch_of_lt hpc, fetchedOf, decode_of_negative hw hn]

end

/-- Settles O21: the word in the cell decides the fetch. -/
theorem stepRunsTheDecodedInstruction : Obligations.StepRunsTheDecodedInstruction := by
  unfold Obligations.StepRunsTheDecodedInstruction
  exact fun s i hs hd => step_eq_exec hs hd

/-- Settles O22: the fetch raises the error, which is taken at the pc where it stands. -/
theorem fetchPastTheEndRaisesMemoryOverflow : Obligations.FetchPastTheEndRaisesMemoryOverflow := by
  unfold Obligations.FetchPastTheEndRaisesMemoryOverflow
  intro s hP hp hr hpc
  exact (step_of_running hP hp hr).trans (cpuStep_of_raises (fetch_of_le hpc))

/-- Settles O23: the decoder refuses the fetched word, and the error is taken at the pc where it stands. -/
theorem negativeWordRaisesInvalidInstructionWord : Obligations.NegativeWordRaisesInvalidInstructionWord := by
  unfold Obligations.NegativeWordRaisesInvalidInstructionWord
  rintro s w hs rfl hmin hneg
  have hw : InWord (Memory.read s.mem s.pc) := ⟨hmin, by rw [wordMax]; omega⟩
  exact (step_of_running hs.params hs.phase hs.run).trans (cpuStep_of_raises (fetch_of_negative hs.pc hw (by omega)))

/-- Settles O24: the fault is no next state. -/
theorem haltedCpuHasNoStep : Obligations.HaltedCpuHasNoStep := by
  unfold Obligations.HaltedCpuHasNoStep
  intro s hP hp hr
  rw [step_of_halted hP hp hr]
  exact ⟨rfl, fun _ => nofun⟩

/-! ### The word the host places -/

theorem decode_of_decodeTableWord {nbits w : Nat} {i : Instr} (h : decodeTableWord nbits w = some i) :
    decode (w : Int) = .instr i := by
  unfold decodeTableWord at h
  split at h
  case h_1 j hd =>
    injection h with h
    exact h ▸ hd
  all_goals cases h

theorem withFetchWord_pc_lt (s : State) (nbits w : Nat) (hP : s.params.ok) :
    (s.withFetchWord nbits w).pc < s.params.n := by
  change (if s.pc < s.params.n then s.pc else 0) < s.params.n
  split_ifs with hpc
  · exact hpc
  · exact hP.1

theorem withFetchWord_running (s : State) (nbits w : Nat) (hP : s.params.ok) : Running (s.withFetchWord nbits w) :=
  ⟨hP, rfl, rfl, withFetchWord_pc_lt s nbits w hP⟩

theorem read_withFetchWord {s : State} (nbits w : Nat) (hwf : Memory.wf s.mem = true) :
    Memory.read (s.withFetchWord nbits w).mem (s.withFetchWord nbits w).pc = (w : Int) :=
  Memory.read_write_same hwf _ _

/-- Settles O33: the placed word is read back at the pc, in a running state. -/
theorem placedWordIsTheNextInstruction : Obligations.PlacedWordIsTheNextInstruction := by
  unfold Obligations.PlacedWordIsTheNextInstruction
  intro s nbits w i hP hwf h
  have hd : decode (Memory.read (s.withFetchWord nbits w).mem (s.withFetchWord nbits w).pc) = .instr i := by
    rw [read_withFetchWord nbits w hwf, decode_of_decodeTableWord h]
  exact step_eq_exec (withFetchWord_running s nbits w hP) hd

/-! ### The ends of a run -/

/-- Every instruction completes (R95): by its effect, or by the error it raises. -/
theorem exec_next (i : Instr) (s : State) : ∃ t, exec i s = .next t := by
  obtain ⟨t, ht⟩ | ⟨r, hr⟩ := effect_or_raises i s
  · exact ⟨t, exec_eq_of_effect ht⟩
  · exact ⟨_, exec_eq_of_raises hr⟩

/-- A CPU step completes unless the fetched cell holds no word (log 8). -/
theorem cpuStep_next_of_inWord {s : State} (hw : InWord (Memory.read s.mem s.pc)) : ∃ t, cpuStep s = .next t := by
  obtain ⟨-, hc⟩ | ⟨i, -, -, hc⟩ | ⟨-, -, -, hc⟩ | ⟨-, hnot, -⟩ := cpuStep_cases s
  · exact ⟨_, hc⟩
  · rw [hc]
    exact exec_next i s
  · exact ⟨_, hc⟩
  · exact absurd hw hnot

/-- An assembly stage or CPU reset always has a next state (R145, R147). -/
theorem step_next_of_assembling {s : State} (hP : s.params.ok) (hexec : s.phase ≠ .execution)
    (hfailed : ∀ e, s.phase ≠ .failed e) : ∃ t, step s = .next t := by
  rw [step, if_neg (not_not.2 hP)]
  cases hp : s.phase with
  | source | pass1 | pass2 | assembled => exact ⟨_, rfl⟩
  | execution => exact absurd hp hexec
  | failed e => exact absurd hp (hfailed e)

/-- Settles O27: the two ends have no next state; every other legal state has one, its cells being words. -/
theorem machineStopsOnlyAtItsEnds : Obligations.MachineStopsOnlyAtItsEnds := by
  unfold Obligations.MachineStopsOnlyAtItsEnds
  intro s h
  refine ⟨fun ⟨t, ht⟩ => ⟨fun ⟨hp, hr⟩ => ?_, fun e hp => ?_⟩, fun ⟨hnotHalted, hnotFailed⟩ => ?_⟩
  · rw [step_of_halted h.params hp hr] at ht
    cases ht
  · rw [step_of_failed h.params hp] at ht
    cases ht
  · by_cases hp : s.phase = .execution
    · cases hr : s.run with
      | running =>
        rw [step_of_running h.params hp hr]
        exact cpuStep_next_of_inWord (Memory.inWord_read h.memory.inSpace s.pc)
      | halted => exact absurd ⟨hp, hr⟩ hnotHalted
    · exact step_next_of_assembling h.params hp hnotFailed

/-! ### A branch to itself -/

/-- A state that steps to itself is where every run from it ends. -/
theorem run_of_step_self {s : State} (h : step s = .next s) (k : Nat) : core.run k s = .next s := by
  induction k with
  | zero => exact run_zero s
  | succ k ih => rw [run_of_next h, ih]

/-- A branch to the fetch address undoes the pc's increment. -/
theorem exec_bra_self (s : State) : exec (.bra s.pc) s = .next s := exec_eq_of_effect rfl

/-- Settles O28: the step leads back to its own state. -/
theorem branchToItselfLoopsForever : Obligations.BranchToItselfLoopsForever := by
  unfold Obligations.BranchToItselfLoopsForever
  intro s k hs hread
  have hn : s.params.n ≤ 100 := hs.params.2.1
  have hpc := hs.pc
  have hword : 600 + (s.pc : Int) = encode (.bra s.pc) := rfl
  have hwf : (Instr.bra s.pc).wf = true := decide_eq_true (by omega)
  have hd : decode (Memory.read s.mem s.pc) = .instr (.bra s.pc) := by rw [hread, hword, decode_encode hwf]
  exact run_of_step_self ((step_eq_exec hs hd).trans (exec_bra_self s)) k

/-! ### What a run does not depend on -/

/-- `s` with other things left by the assembler: its source and its registers. -/
def withAssembly (src : Option Text) (r : AsmRegs) (s : State) : State := { s with src := src, asm := r }

/-- An outcome with its next state changed by `f`, if it has one. -/
def mapNext (f : State → State) : Host.Outcome State Fault Refusal → Host.Outcome State Fault Refusal
  | .next s => .next (f s)
  | .fault e => .fault e
  | .refused e => .refused e

section
variable (src : Option Text) (r : AsmRegs)

theorem effect_withAssembly {i : Instr} {s t : State} (h : Effect i s t) :
    Effect i (withAssembly src r s) (withAssembly src r t) := by
  cases i with
  | hlt _ | bra _ | out | prt => subst h; rfl
  | add _ | sub _ =>
    obtain ⟨ha, hv, rfl⟩ := h
    exact ⟨ha, hv, rfl⟩
  | sta _ | lda _ | unassigned _ =>
    obtain ⟨ha, rfl⟩ := h
    exact ⟨ha, rfl⟩
  | ldd _ =>
    obtain ⟨ha, p, hp, hpn, rfl⟩ := h
    exact ⟨ha, p, hp, hpn, rfl⟩
  | brz _ | brp _ => exact (congrArg (withAssembly src r) h).trans (apply_ite ..)
  | inp =>
    obtain ⟨v, hin, hv, rfl⟩ | ⟨hin, rfl⟩ := h
    · exact .inl ⟨v, hin, hv, rfl⟩
    · exact .inr ⟨hin, rfl⟩

theorem raisesError_withAssembly {i : Instr} {s : State} {e : Raise} (h : RaisesError i s e) :
    RaisesError i (withAssembly src r s) e := by
  cases i <;> exact h

theorem exec_withAssembly (i : Instr) (s : State) :
    exec i (withAssembly src r s) = mapNext (withAssembly src r) (exec i s) := by
  obtain ⟨t, ht⟩ | ⟨e, he⟩ := effect_or_raises i s
  · rw [exec_eq_of_effect ht, exec_eq_of_effect (effect_withAssembly src r ht), mapNext]
  · rw [exec_eq_of_raises he, exec_eq_of_raises (raisesError_withAssembly src r he)]
    rfl

theorem fetch_withAssembly (s : State) : fetch (withAssembly src r s) = fetch s := rfl

theorem cpuStep_withAssembly (s : State) :
    cpuStep (withAssembly src r s) = mapNext (withAssembly src r) (cpuStep s) := by
  rw [cpuStep, cpuStep, fetch_withAssembly]
  cases fetch s with
  | instr i => exact exec_withAssembly src r i s
  | raises _ | noWord _ => rfl

/-- A step of the execution phase neither reads nor writes what the assembler left (R30, R102). -/
theorem step_withAssembly {s : State} (hp : s.phase = .execution) :
    step (withAssembly src r s) = mapNext (withAssembly src r) (step s) := by
  by_cases hP : s.params.ok
  · cases hr : s.run with
    | running =>
      rw [step_of_running hP hp hr, step_of_running (s := withAssembly src r s) hP hp hr, cpuStep_withAssembly]
    | halted =>
      rw [step_of_halted hP hp hr, step_of_halted (s := withAssembly src r s) hP hp hr, mapNext]
  · rw [step_of_unsupported hP, step_of_unsupported (s := withAssembly src r s) hP, mapNext]

/-- The execution phase is the machine's last (R147). -/
theorem phase_of_step_execution {s t : State} (hp : s.phase = .execution) (h : step s = .next t) :
    t.phase = .execution := by
  obtain ⟨-, hc⟩ := step_execution hp h
  obtain ⟨i, -, -, -, he⟩ | ⟨e, rfl⟩ := cpuStep_next hc
  · obtain ⟨-, hphase, -⟩ := (update_of_exec he).frame
    exact hphase.trans hp
  · exact hp

theorem run_withAssembly (k : Nat) {s : State} (hp : s.phase = .execution) :
    core.run k (withAssembly src r s) = mapNext (withAssembly src r) (core.run k s) := by
  induction k generalizing s with
  | zero => rfl
  | succ k ih =>
    have hside := step_withAssembly src r hp
    cases hstep : step s with
    | next t =>
      rw [hstep] at hside
      rw [run_of_next hstep, run_of_next hside]
      exact ih (phase_of_step_execution hp hstep)
    | fault e =>
      rw [hstep] at hside
      rw [run_of_fault hstep, run_of_fault hside]
      rfl
    | refused e =>
      rw [hstep] at hside
      rw [run_of_refused hstep, run_of_refused hside]
      rfl

end

/-- Settles O41: the two runs end alike, by their steps' independence of what the assembler left. -/
theorem runDependsOnlyOnImageAndInput : Obligations.RunDependsOnlyOnImageAndInput := by
  unfold Obligations.RunDependsOnlyOnImageAndInput
  intro k s src r hp
  have hrun := run_withAssembly src r k hp
  exact ⟨fun t h => hrun.trans (congrArg _ h), fun e h => hrun.trans (congrArg _ h),
    fun e h => hrun.trans (congrArg _ h)⟩

end Sys2Proof.Proofs
end

section
/-! PROOFS. The statements about the arithmetic instructions (43_arithmetic.md): first what every instruction's claim
rests on, that its word runs as it and that the error it raises gives the written-out error state; then ADD and SUB. -/

namespace Sys2Proof.Proofs

open Sys2Proof.Machine Sys2Proof.Claims

/-! ### An instruction's word and its error -/

/-- A well-formed instruction's word runs as the instruction (R50, R96). -/
theorem runsAs_of_encode {i : Instr} {w : Nat} (hwf : i.wf = true) (hw : encode i = (w : Int)) : RunsAs w i := by
  have hdec : decode (w : Int) = .instr i := hw ▸ decode_encode hwf
  exact ⟨hw, hdec, fun s hs hread => step_eq_exec hs (hread ▸ hdec)⟩

/-- An error raised in dispatch leaves the state of R130. -/
theorem exec_eq_errorState {i : Instr} {s : State} {k : ExecErrorKind} {info : Int} (h : RaisesError i s ⟨k, info⟩) :
    exec i s = .next (errorState s k info) := exec_eq_of_raises h

/-! ### ADD and SUB -/

/-- Settles O2: the three clauses are ADD's effect and its two errors. -/
theorem addGivesExactSumOrError : Obligations.AddGivesExactSumOrError := by
  unfold Obligations.AddGivesExactSumOrError
  refine ⟨fun a ha => runsAs_of_encode (decide_eq_true ha) rfl,
    fun a s => ⟨fun ha hv => ?_, fun ha hv => ?_, fun ha => ?_⟩⟩
  · exact exec_eq_of_effect ⟨ha, hv, rfl⟩
  · exact exec_eq_errorState (.inr ⟨ha, hv, rfl⟩)
  · exact exec_eq_errorState (.inl ⟨ha, rfl⟩)

/-- Settles O3: the three clauses are SUB's effect and its two errors. -/
theorem subGivesExactDifferenceOrError : Obligations.SubGivesExactDifferenceOrError := by
  unfold Obligations.SubGivesExactDifferenceOrError
  refine ⟨fun a ha => runsAs_of_encode (decide_eq_true ha) rfl,
    fun a s => ⟨fun ha hv => ?_, fun ha hv => ?_, fun ha => ?_⟩⟩
  · exact exec_eq_of_effect ⟨ha, hv, rfl⟩
  · exact exec_eq_errorState (.inr ⟨ha, hv, rfl⟩)
  · exact exec_eq_errorState (.inl ⟨ha, rfl⟩)

end Sys2Proof.Proofs
end

section
/-! PROOFS. The statements about the loads and the store (44_load_store.md): what LDA, LDD and STA do to the whole
state, and that a stored value stays in its cell and is loaded back until the cell is stored to again. -/

namespace Sys2Proof.Proofs

open Sys2Proof.Machine Sys2Proof.Claims

section
variable {s : State} {a : Nat}

/-! ### The effects of STA, LDD and LDA -/

theorem exec_sta_of_lt (ha : a < s.params.n) :
    exec (.sta a) s = .next { s with pc := s.pc + 1, mem := Memory.write s.mem a s.acc } :=
  exec_eq_of_effect ⟨ha, rfl⟩

theorem exec_ldd_of_lt {q : Nat} (ha : a < s.params.n) (hq : Memory.read s.mem a = (q : Int)) (hqn : q < s.params.n) :
    exec (.ldd a) s = .next { s with pc := s.pc + 1, acc := Memory.read s.mem q } :=
  exec_eq_of_effect ⟨ha, q, hq, hqn, rfl⟩

theorem exec_lda_of_lt (ha : a < s.params.n) :
    exec (.lda a) s = .next { s with pc := s.pc + 1, acc := Memory.read s.mem a } :=
  exec_eq_of_effect ⟨ha, rfl⟩

/-! ### The cell between the store and the load -/

variable {i : Instr} {is : List Instr} {t u : State}

theorem execAll_cons (h : execAll (i :: is) s = .next u) : ∃ t, exec i s = .next t ∧ execAll is t = .next u := by
  obtain ⟨t, ht⟩ := exec_next i s
  rw [execAll, ht] at h
  exact ⟨t, ht, h⟩

theorem params_of_exec (h : exec i s = .next t) : t.params = s.params := (update_of_exec h).frame.1

/-- An instruction that does not store to a cell leaves its content alone, a store to another cell included. -/
theorem read_of_exec (h : exec i s = .next t) (hi : i ≠ .sta a) : Memory.read t.mem a = Memory.read s.mem a := by
  obtain hmem | ⟨b, rfl, hmem⟩ := mem_of_exec h <;> rw [hmem]
  exact Memory.read_write_of_ne s.mem s.acc fun hab => hi (hab ▸ rfl)

/-- A run of instructions that never stores to a cell keeps its content and the parameters (R39, R111). -/
theorem params_and_read_of_execAll (h : execAll is s = .next u) (his : ∀ i ∈ is, i ≠ .sta a) :
    u.params = s.params ∧ Memory.read u.mem a = Memory.read s.mem a := by
  induction is generalizing s with
  | nil => cases h; exact ⟨rfl, rfl⟩
  | cons i is ih =>
    obtain ⟨hi, his⟩ := List.forall_mem_cons.1 his
    obtain ⟨t, ht, hu⟩ := execAll_cons h
    obtain ⟨hparams, hread⟩ := ih hu his
    exact ⟨hparams.trans (params_of_exec ht), hread.trans (read_of_exec ht hi)⟩

end

/-- Settles O34: the store puts the value into the cell, the instructions in between leave it there, and both loads
read that cell. -/
theorem storedValueIsLoadedBack : Obligations.StoredValueIsLoadedBack := by
  unfold Obligations.StoredValueIsLoadedBack
  intro is a b s t u hwf ha hb hsta his hu
  rw [exec_sta_of_lt ha] at hsta
  cases hsta
  obtain ⟨hparams, hkept⟩ := params_and_read_of_execAll hu his
  have hcell : Memory.read u.mem a = s.acc := hkept.trans (Memory.read_write_same hwf a s.acc)
  have hn : u.params.n = s.params.n := congrArg Params.n hparams
  rw [← hn] at ha hb
  exact ⟨⟨_, exec_lda_of_lt ha, hcell, rfl⟩, fun hptr => ⟨_, exec_ldd_of_lt hb hptr ha, hcell, rfl⟩⟩

/-- Settles O4: the two clauses are STA's effect, by the laws of a write, and its error. -/
theorem staStoresAccumulatorAtOperand : Obligations.StaStoresAccumulatorAtOperand := by
  unfold Obligations.StaStoresAccumulatorAtOperand
  refine ⟨fun a ha => runsAs_of_encode (decide_eq_true ha) rfl, fun a s => ⟨fun ha => ?_, fun ha => ?_⟩⟩
  · refine ⟨_, exec_sta_of_lt ha, fun hwf => ?_, fun b hb => ?_⟩
    · exact ⟨Memory.wf_write hwf a s.acc, Memory.read_write_same hwf a s.acc⟩
    · exact Memory.read_write_of_ne s.mem s.acc fun hba => hb (congrArg Int.ofNat hba)
  · exact exec_eq_errorState ⟨ha, rfl⟩

/-- Settles O5: the three clauses are LDD's effect and its two errors, at the pointer and at the operand. -/
theorem lddLoadsThroughWholePointer : Obligations.LddLoadsThroughWholePointer := by
  unfold Obligations.LddLoadsThroughWholePointer
  refine ⟨fun a ha => runsAs_of_encode (decide_eq_true ha) rfl,
    fun a s => ⟨fun q ha hq hqn => ?_, fun ha hq => ?_, fun ha => ?_⟩⟩
  · exact exec_ldd_of_lt ha hq hqn
  · exact exec_eq_errorState (.inr ⟨ha, hq, rfl⟩)
  · exact exec_eq_errorState (.inl ⟨ha, rfl⟩)

/-- Settles O6: the two clauses are LDA's effect and its error. -/
theorem ldaLoadsTheCell : Obligations.LdaLoadsTheCell := by
  unfold Obligations.LdaLoadsTheCell
  refine ⟨fun a ha => runsAs_of_encode (decide_eq_true ha) rfl, fun a s => ⟨fun ha => ?_, fun ha => ?_⟩⟩
  · exact exec_lda_of_lt ha
  · exact exec_eq_errorState ⟨ha, rfl⟩

end Sys2Proof.Proofs
end

section
/-! PROOFS. The statements about HLT and the branches (45_control.md): the halt and its status, and where each branch
leaves the pc. -/

namespace Sys2Proof.Proofs

open Sys2Proof.Machine Sys2Proof.Claims

/-! ### HLT -/

theorem exec_hlt (a : Nat) (s : State) :
    exec (.hlt a) s = .next { s with pc := s.pc + 1, run := .halted, status := .ok } :=
  exec_eq_of_effect rfl

/-- Of the two ways to halt only HLT gives the status Ok (R112): an error leaves its own (R130). -/
theorem Update.status_ok {i : Instr} {s t : State} (hu : Update i s t) (ht : t.status = .ok) :
    s.status = .ok ∨ ∃ a, i = .hlt a := by
  obtain ⟨-, hkept⟩ | ⟨-, ⟨-, hhlt⟩ | ⟨_, _, herr⟩⟩ := hu.run
  · exact .inl (hkept.symm.trans ht)
  · exact .inr hhlt
  · cases herr.symm.trans ht

/-- Settles O1: HLT's effect is the halt, and `Update.run` names every other way to a status. -/
theorem haltStopsTheRun : Obligations.HaltStopsTheRun := by
  unfold Obligations.HaltStopsTheRun
  refine ⟨fun a ha => runsAs_of_encode (decide_eq_true ha) ?_, exec_hlt, fun i s t h ht => ?_⟩
  · exact congrArg Int.ofNat (Nat.zero_add a)
  · exact (update_of_exec h).status_ok ht

/-! ### BRA, BRZ and BRP -/

/-- Settles O7: the branch target replaces the incremented pc. -/
theorem braGoesToOperand : Obligations.BraGoesToOperand := by
  unfold Obligations.BraGoesToOperand
  exact ⟨fun a ha => runsAs_of_encode (decide_eq_true ha) rfl, fun a s => exec_eq_of_effect rfl⟩

/-- Settles O8: the two clauses are the branches of BRZ's effect. -/
theorem brzBranchesExactlyOnZero : Obligations.BrzBranchesExactlyOnZero := by
  unfold Obligations.BrzBranchesExactlyOnZero
  refine ⟨fun a ha => runsAs_of_encode (decide_eq_true ha) rfl, fun a s => ⟨fun hzero => ?_, fun hzero => ?_⟩⟩
  · exact exec_eq_of_effect (if_pos hzero).symm
  · exact exec_eq_of_effect (if_neg hzero).symm

/-- Settles O9: the two clauses are the branches of BRP's effect. -/
theorem brpBranchesOnlyOnStrictlyPositive : Obligations.BrpBranchesOnlyOnStrictlyPositive := by
  unfold Obligations.BrpBranchesOnlyOnStrictlyPositive
  refine ⟨fun a ha => runsAs_of_encode (decide_eq_true ha) rfl, fun a s => ⟨fun hpos => ?_, fun hle => ?_⟩⟩
  · exact exec_eq_of_effect (if_pos hpos).symm
  · exact exec_eq_of_effect (if_neg (not_lt.2 hle)).symm

end Sys2Proof.Proofs
end

section
/-! PROOFS. The statements about input and output (46_io.md): how the events of the sink are rendered, what INP, OUT and
PRT do, and when the host may supply, read and get back what. -/

namespace Sys2Proof.Proofs

open Sys2Proof.Machine Sys2Proof.Claims

/-! ### The rendering (R119) -/

theorem render_singleton (ev : Event) : render [ev] = renderEvent ev := List.append_nil _

theorem render_append (xs ys : List Event) : render (xs ++ ys) = render xs ++ render ys := by
  induction xs with
  | nil => rfl
  | cons ev xs ih => rw [List.cons_append, render, render, ih, List.append_assoc]

theorem render_num_of_nonneg {v : Int} (h : 0 ≤ v) : render [.num v] = decimalDigits v.toNat := by
  rw [render_singleton, renderEvent, decimalText, if_neg (by omega), show v.natAbs = v.toNat by omega]

theorem render_num_of_neg {v : Int} (h : v < 0) : render [.num v] = '-' :: decimalDigits (-v).toNat := by
  rw [render_singleton, renderEvent, decimalText, if_pos h, show v.natAbs = (-v).toNat by omega]

theorem render_chr (v : Nat) : render [.chr (v : Int)] = [Char.ofNat v] := by
  rw [render_singleton, renderEvent, if_neg (by omega), Int.toNat_natCast]

/-- The most significant digit of a number other than 0 is one of 1 to 9. -/
theorem digitsRev_reverse_head {fuel n : Nat} (h : n < fuel) (hn : n ≠ 0) :
    ∃ d, d ≠ 0 ∧ d ≤ 9 ∧ (digitsRev fuel n).reverse.head? = some (Char.ofNat (48 + d)) := by
  induction fuel generalizing n with
  | zero => omega
  | succ fuel ih =>
    rw [digitsRev]
    split_ifs with hlt
    · exact ⟨n, hn, by omega, rfl⟩
    · obtain ⟨d, hd, hd9, hhead⟩ := ih (n := n / 10) (by omega) (by omega)
      exact ⟨d, hd, hd9, by rw [List.reverse_cons, List.head?_append, hhead, Option.some_or]⟩

/-- The text has no leading zero, the one digit of value 0. -/
theorem decimalDigits_head_ne_zero {n : Nat} (hn : n ≠ 0) : (decimalDigits n).head? ≠ some '0' := by
  obtain ⟨d, hd, hd9, hhead⟩ := digitsRev_reverse_head (Nat.lt_succ_self n) hn
  rw [decimalDigits, hhead]
  intro hzero
  have hvalue := digitValue_ofNat hd9
  rw [Option.some.inj hzero] at hvalue
  exact hd (Option.some.inj hvalue).symm

theorem digitChar_of_mem_decimalDigits (n : Nat) : ∀ c ∈ decimalDigits n, DigitChar c := by
  obtain ⟨-, hdigits, -⟩ := unsignedValue_eq_some.1 (unsignedValue_decimalDigits n)
  exact hdigits

/-- A code point below the surrogates is a character's. -/
theorem toNat_ofNat_of_le {v : Nat} (h : v ≤ 999) : (Char.ofNat v).toNat = v := by
  rw [Char.toNat_ofNat, if_pos (.inl (by omega))]

/-- Settles O56: the rendering event by event; the digits are those the lexer reads back as the number. -/
theorem renderingJoinsTheEventsTexts : Obligations.RenderingJoinsTheEventsTexts := by
  unfold Obligations.RenderingJoinsTheEventsTexts
  refine ⟨rfl, render_append, fun _ => render_num_of_nonneg, fun _ => render_num_of_neg, fun n => ?_,
    fun v hv => ⟨render_chr v, toNat_ofNat_of_le hv⟩⟩
  exact ⟨decimalDigits_ne_nil n, decimalDigits_head_ne_zero, digitChar_of_mem_decimalDigits n,
    unsignedValue_decimalDigits n⟩

/-! ### INP, OUT and PRT -/

/-- Settles O10: the three clauses are the two branches of INP's effect and its error. -/
theorem inpReadsNextValueOrZero : Obligations.InpReadsNextValueOrZero := by
  unfold Obligations.InpReadsNextValueOrZero
  refine ⟨runsAs_of_encode rfl rfl, fun s => ⟨fun v hin hv => ?_, fun v hin hv => ?_, fun hend => ?_⟩⟩
  · exact exec_eq_of_effect (.inl ⟨v, hin, hv, rfl⟩)
  · exact exec_eq_errorState ⟨v, hin, hv, rfl⟩
  · exact exec_eq_of_effect (.inr ⟨List.getElem?_eq_none hend, rfl⟩)

/-- Settles O11: OUT's effect, and the examples of R123 rendered. -/
theorem outAppendsNumber : Obligations.OutAppendsNumber := by
  unfold Obligations.OutAppendsNumber
  exact ⟨runsAs_of_encode rfl rfl, fun s => exec_eq_of_effect rfl, by decide, by decide, by decide⟩

/-- Settles O12: PRT's effect, whatever the accumulator holds. -/
theorem prtAppendsCharacter : Obligations.PrtAppendsCharacter := by
  unfold Obligations.PrtAppendsCharacter
  exact ⟨runsAs_of_encode rfl rfl, fun s => exec_eq_of_effect rfl, render_chr 65, render_chr 10⟩

/-! ### The host's times (R125) -/

section
variable {s : State}

theorem supplySource_eq_some {src : Option Text} {t : State} :
    supplySource src s = some t ↔ s.phase = .source ∧ t = { s with src := src } := by
  cases hp : s.phase <;> simp [supplySource, hp, eq_comm]

theorem supplyInput_eq_some {input : List Int} {t : State} :
    supplyInput input s = some t ↔ s.phase = .assembled ∧ t = { s with input := input } := by
  cases hp : s.phase <;> simp [supplyInput, hp, eq_comm]

theorem assemblyResult_eq_some {r : Except AsmError (List Int)} :
    assemblyResult s = some r ↔ (∃ e, s.phase = .failed e ∧ r = .error e) ∨
      (s.phase = .assembled ∧ r = .ok (Memory.cells s.params.n s.mem)) := by
  cases hp : s.phase <;> simp [assemblyResult, hp, eq_comm]

theorem debugDump_eq_some {d : List Symbol × List Int} :
    debugDump s = some d ↔ s.phase = .assembled ∧ d = (s.asm.symtab, Memory.cells s.params.n s.mem) := by
  cases hp : s.phase <;> simp [debugDump, hp, eq_comm]

theorem hostText_eq_some {x : Text} :
    hostText s = some x ↔ s.phase = .execution ∧ s.run = .halted ∧ x = render s.out := by
  rw [hostText, Option.map_eq_some_iff]
  constructor
  · rintro ⟨o, ho, rfl⟩
    obtain ⟨hp, hr, rfl⟩ := afterHalt_eq_some.1 ho
    exact ⟨hp, hr, rfl⟩
  · rintro ⟨hp, hr, rfl⟩
    exact ⟨s.out, afterHalt_of_halted hp hr, rfl⟩

/-- During the run nothing of the CPU can be read (R125, row 3). -/
theorem reads_none_of_running (hp : s.phase = .execution) (hr : s.run = .running) :
    hostOut s = none ∧ hostStatus s = none ∧ hostText s = none ∧ hostBytes s = none ∧ completionStatus s = none := by
  have hout : hostOut s = none := afterHalt_of_running hr
  refine ⟨hout, afterHalt_of_running hr, ?_, ?_, ?_⟩
  · rw [hostText, hout, Option.map_none]
  · rw [hostBytes, hout, Option.map_none]
  · rw [completionStatus, hp, hr]

/-- From CPU reset on the assembly's answer and the dump are gone and nothing more can be supplied (R125, log 17). -/
theorem assembly_none_of_execution (hp : s.phase = .execution) :
    debugDump s = none ∧ assemblyResult s = none ∧
      ∀ src input, supplySource src s = none ∧ supplyInput input s = none := by
  simp [debugDump, assemblyResult, supplySource, supplyInput, hp]

/-- A legal run has ended exactly when it has no next step (R95). -/
theorem no_step_iff_halted (h : Inv s) (hp : s.phase = .execution) : (∀ t, step s ≠ .next t) ↔ s.run = .halted := by
  have hends := machineStopsOnlyAtItsEnds s h
  simpa [hp] using not_congr hends

end

/-- Settles O58: each function of the host answers at its phase only, and a legal run without a next step has halted. -/
theorem hostActsOnlyAtItsTimes : Obligations.HostActsOnlyAtItsTimes := by
  unfold Obligations.HostActsOnlyAtItsTimes
  refine ⟨fun _ _ _ => supplySource_eq_some, fun _ _ _ => supplyInput_eq_some, fun _ _ => assemblyResult_eq_some,
    fun _ _ => debugDump_eq_some, fun _ _ => afterHalt_eq_some, fun _ _ => afterHalt_eq_some,
    fun _ _ => hostText_eq_some, fun s hp hr => ?_, fun s h hp => ?_⟩
  · obtain ⟨hout, hstatus, htext, hbytes, hcompletion⟩ := reads_none_of_running hp hr
    exact ⟨hout, hstatus, htext, hbytes, hcompletion, assembly_none_of_execution hp⟩
  · rw [hostText_eq_some, no_step_iff_halted h hp]
    exact ⟨fun ⟨_, hr, _⟩ => hr, fun hr => ⟨hp, hr, rfl⟩⟩

end Sys2Proof.Proofs
end

section
/-! PROOFS. The statement about the unassigned words (47_unassigned.md): their word, and the two meanings that the
parameter INVALID_OPCODE_FATAL chooses between. -/

namespace Sys2Proof.Proofs

open Sys2Proof.Machine Sys2Proof.Claims

/-- The word of an unassigned selector, which is also what `InvalidOpcode` reports (R126). -/
theorem encode_unassigned (sel : Nat) : encode (.unassigned sel) = 900 + (sel : Int) := Int.natCast_add 900 sel

/-- Settles O13: the two clauses are the unassigned word's effect and its error, one for each value of the parameter. -/
theorem unassignedWordIsNoOpUnlessFatal : Obligations.UnassignedWordIsNoOpUnlessFatal := by
  unfold Obligations.UnassignedWordIsNoOpUnlessFatal
  refine ⟨rfl, fun sel hsel => ⟨runsAs_of_encode (decide_eq_true hsel) rfl,
    fun s => ⟨fun hnop => ?_, fun hfatal => ?_⟩⟩⟩
  · exact exec_eq_of_effect ⟨hnop, rfl⟩
  · exact exec_eq_errorState ⟨hfatal, congrArg (Raise.mk .invalidOpcode) (encode_unassigned sel).symm⟩

end Sys2Proof.Proofs
end

section
/-! PROOFS. The statements about errors (60_exceptions.md) and about the order of the phases (70_reset_and_hazards.md):
where each execution error is raised and what it leaves; the completion status of each outcome; and what the steps of
each phase write. -/

namespace Sys2Proof.Proofs

open Sys2Proof.Machine Sys2Proof.Claims

/-! ### Execution errors are precise (R130) -/

/-- The errors raised before the pc moves on: those of the fetch and of the decoder (R97, R98). -/
def FetchErrorKind (k : ExecErrorKind) : Prop := k = .memoryOverflow ∨ k = .invalidInstructionWord

section
variable {i : Instr} {s t : State} {k : ExecErrorKind} {p : Nat} {v : Option Int}

/-- No instruction raises an error of the fetch (R127, R133). -/
theorem not_fetchErrorKind_of_raises {r : Raise} (h : RaisesError i s r) : ¬ FetchErrorKind r.kind := by
  cases i with
  | add _ | sub _ | ldd _ => obtain ⟨-, rfl⟩ | ⟨-, -, rfl⟩ := h <;> simp [FetchErrorKind]
  | sta _ | lda _ | unassigned _ =>
    obtain ⟨-, rfl⟩ := h
    simp [FetchErrorKind]
  | inp =>
    obtain ⟨_, -, -, rfl⟩ := h
    simp [FetchErrorKind]
  | hlt _ | bra _ | brz _ | brp _ | out | prt => exact h.elim

/-- An instruction that puts an error into a clean status has raised it, and only the pc has moved on besides. -/
theorem exec_error (hs : s.status = .none) (h : exec i s = .next t) (ht : t.status = .error k p v) :
    ∃ r : Raise, ¬ FetchErrorKind r.kind ∧ t = s.incPc.takeError s.pc r := by
  obtain he | ⟨r, hr, rfl⟩ := exec_cases h
  · obtain ⟨-, hst | hst⟩ := mem_and_status_of_effect he
    · rw [hst, hs] at ht
      cases ht
    · rw [hst] at ht
      cases ht
  · exact ⟨r, not_fetchErrorKind_of_raises hr, rfl⟩

/-- A CPU step that puts an error into a clean status has taken it at the fetch address: on the state before the step
for an error of the fetch, and with the pc moved on for one that the instruction raises (R96, R130). -/
theorem cpuStep_error (hs : s.status = .none) (h : cpuStep s = .next t) (ht : t.status = .error k p v) :
    ∃ r : Raise, (FetchErrorKind r.kind ∧ t = s.takeError s.pc r) ∨
      (¬ FetchErrorKind r.kind ∧ t = s.incPc.takeError s.pc r) := by
  obtain ⟨-, hc⟩ | ⟨i, -, -, hc⟩ | ⟨-, -, -, hc⟩ | ⟨-, -, hc⟩ := cpuStep_cases s <;> rw [hc] at h
  · injection h with h
    exact ⟨_, .inl ⟨.inl rfl, h.symm⟩⟩
  · obtain ⟨r, hr⟩ := exec_error hs h ht
    exact ⟨r, .inr hr⟩
  · injection h with h
    exact ⟨_, .inl ⟨.inr rfl, h.symm⟩⟩
  · cases h

end

/-- Settles O25: an error is taken on the state before the step or on that state with its pc moved on. -/
theorem errorsArePrecise : Obligations.ErrorsArePrecise := by
  unfold Obligations.ErrorsArePrecise
  intro s t k p v hp hs h ht
  obtain ⟨r, ⟨hr, rfl⟩ | ⟨hr, rfl⟩⟩ := cpuStep_error hs (step_execution hp h).2 ht
  · obtain ⟨rfl, rfl, rfl⟩ := Status.error.inj ht
    exact ⟨rfl, rfl, .inl ⟨hr, rfl⟩⟩
  · obtain ⟨rfl, rfl, rfl⟩ := Status.error.inj ht
    exact ⟨rfl, rfl, .inr ⟨not_or.1 hr, rfl⟩⟩

/-! ### The completion status (R132) -/

theorem asmErrorKind_code_ne_zero (k : AsmErrorKind) : k.code ≠ 0 := by cases k <;> decide

theorem execErrorKind_code_ne_zero (k : ExecErrorKind) : k.code ≠ 0 := by cases k <;> decide

theorem statusCode_eq_some {st : Status} {c : Nat} :
    st.code = some c ↔ (st = .ok ∧ c = 0) ∨ ∃ k p v, st = .error k p v ∧ c = k.code := by
  cases st <;> simp [Status.code, eq_comm]

section
variable {s : State}

theorem completionStatus_of_failed {e : AsmError} (hp : s.phase = .failed e) :
    completionStatus s = some e.kind.code := by rw [completionStatus, hp]

theorem completionStatus_of_halted (hp : s.phase = .execution) (hr : s.run = .halted) :
    completionStatus s = s.status.code := by rw [completionStatus, hp, hr]

/-- Only a failed assembly and a halted run have a completion status. -/
theorem completionStatus_eq_some {c : Nat} :
    completionStatus s = some c ↔ (∃ e, s.phase = .failed e ∧ c = e.kind.code) ∨
      (s.phase = .execution ∧ s.run = .halted ∧ s.status.code = some c) := by
  cases hp : s.phase with
  | failed e => simp [completionStatus_of_failed hp, eq_comm]
  | execution =>
    cases hr : s.run with
    | halted => simp [completionStatus_of_halted hp hr]
    | running => simp [completionStatus, hp, hr]
  | source | pass1 | pass2 | assembled => simp [completionStatus, hp]

theorem completionStatus_ne_zero_iff {c : Nat} (h : completionStatus s = some c) :
    c ≠ 0 ↔ (∃ e, s.phase = .failed e) ∨ ∃ k p v, s.status = .error k p v := by
  obtain ⟨e, hp, rfl⟩ | ⟨hp, -, hcode⟩ := completionStatus_eq_some.1 h
  · exact ⟨fun _ => .inl ⟨e, hp⟩, fun _ => asmErrorKind_code_ne_zero e.kind⟩
  · obtain ⟨hs, rfl⟩ | ⟨k, p, v, hs, rfl⟩ := statusCode_eq_some.1 hcode
    · simp [hp, hs]
    · exact ⟨fun _ => .inr ⟨k, p, v, hs⟩, fun _ => execErrorKind_code_ne_zero k⟩

/-- In a legal state a halted run has a status, and so a code (R20, R21). -/
theorem statusCode_of_halted (h : StatusLegal s) (hr : s.run = .halted) : ∃ c, s.status.code = some c := by
  cases hs : s.status with
  | none =>
    have hrun := h.1 hs
    rw [hr] at hrun
    cases hrun
  | ok => exact ⟨_, rfl⟩
  | error k p v => exact ⟨_, rfl⟩

theorem exists_completionStatus_iff (h : StatusLegal s) :
    (∃ c, completionStatus s = some c) ↔
      (∃ e, s.phase = .failed e) ∨ (s.phase = .execution ∧ s.run = .halted) := by
  constructor
  · rintro ⟨c, hc⟩
    obtain ⟨e, hp, -⟩ | ⟨hp, hr, -⟩ := completionStatus_eq_some.1 hc
    · exact .inl ⟨e, hp⟩
    · exact .inr ⟨hp, hr⟩
  · rintro (⟨e, hp⟩ | ⟨hp, hr⟩)
    · exact ⟨_, completionStatus_of_failed hp⟩
    · rw [completionStatus_of_halted hp hr]
      exact statusCode_of_halted h hr

end

/-- Settles O57: the status by outcome, no error's code being 0; legality gives a halted run its status. -/
theorem completionStatusIsNonZeroExactlyOnError : Obligations.CompletionStatusIsNonZeroExactlyOnError := by
  unfold Obligations.CompletionStatusIsNonZeroExactlyOnError
  refine ⟨fun _ _ => completionStatus_of_failed, fun s hp hr => ?_, fun _ _ _ => completionStatus_ne_zero_iff,
    fun _ h => exists_completionStatus_iff h.status, rfl, rfl⟩
  rw [completionStatus_of_halted hp hr]
  exact ⟨fun hs => by rw [hs, Status.code], fun k p v hs => by rw [hs, Status.code]⟩

/-! ### The phases' order and their own state (R147) -/

/-- `t` is `s` with the phase moved on in R147's order, and otherwise only memory and the assembler's registers
written. -/
def AssemblyStep (s t : State) : Prop :=
  ∃ (q : Phase) (m : Memory) (r : AsmRegs), PhaseFollows s.phase q ∧ t = { s with phase := q, mem := m, asm := r }

section
variable {s t : State}

theorem prepareStep_assemblyStep (hp : s.phase = .source) : AssemblyStep s (prepareStep s) := by
  obtain ⟨_, -, hs⟩ | ⟨e, -, hs⟩ := prepareStep_cases s
  · exact ⟨.pass1, [], AsmRegs.reset, by rw [hp]; trivial, hs⟩
  · exact ⟨.failed e, s.mem, s.asm, by rw [hp]; trivial, hs⟩

theorem pass1Step_assemblyStep (hp : s.phase = .pass1) : AssemblyStep s (pass1Step s) := by
  obtain ⟨r, -, hs⟩ | ⟨e, -, hs⟩ := pass1Step_cases s
  · exact ⟨.pass2, s.mem, r, by rw [hp]; trivial, hs⟩
  · exact ⟨.failed e, s.mem, s.asm, by rw [hp]; trivial, hs⟩

theorem pass2Step_assemblyStep (hp : s.phase = .pass2) : AssemblyStep s (pass2Step s) := by
  obtain ⟨r, m, -, hs⟩ | ⟨e, -, hs⟩ := pass2Step_cases s
  · exact ⟨.assembled, m, r, by rw [hp]; trivial, hs⟩
  · exact ⟨.failed e, s.mem, s.asm, by rw [hp]; trivial, hs⟩

/-- A CPU step leaves everything of the launch and of the assembler, and the phase, as it was. -/
theorem cpuStep_frame (h : cpuStep s = .next t) :
    t.params = s.params ∧ t.phase = s.phase ∧ t.src = s.src ∧ t.input = s.input ∧ t.asm = s.asm := by
  obtain ⟨i, -, -, -, he⟩ | ⟨r, rfl⟩ := cpuStep_next h
  · exact (update_of_exec he).frame
  · exact ⟨rfl, rfl, rfl, rfl, rfl⟩

/-- A step is the assembler's, CPU reset, or the CPU's (R145, R147). -/
theorem step_kinds (h : step s = .next t) :
    (s.phase ≠ .execution ∧ AssemblyStep s t) ∨ (s.phase = .assembled ∧ t = cpuReset s) ∨
      (s.phase = .execution ∧ cpuStep s = .next t) := by
  obtain ⟨-, ⟨hp, rfl⟩ | ⟨hp, rfl⟩ | ⟨hp, rfl⟩ | hreset | ⟨hp, -, hc⟩⟩ := step_cases h
  · exact .inl ⟨by simp [hp], prepareStep_assemblyStep hp⟩
  · exact .inl ⟨by simp [hp], pass1Step_assemblyStep hp⟩
  · exact .inl ⟨by simp [hp], pass2Step_assemblyStep hp⟩
  · exact .inr (.inl hreset)
  · exact .inr (.inr ⟨hp, hc⟩)

end

/-- Settles O40, by the kind of step: what each kind leaves as it was, and where it leads. -/
theorem phasesRunInOrderAndOwnTheirState : Obligations.PhasesRunInOrderAndOwnTheirState := by
  unfold Obligations.PhasesRunInOrderAndOwnTheirState
  intro s t h
  obtain ⟨hne, q, m, r, hfollows, rfl⟩ | ⟨hp, rfl⟩ | ⟨hp, hc⟩ := step_kinds h
  · exact ⟨hfollows, ⟨rfl, rfl, rfl⟩, fun _ _ => ⟨rfl, rfl, rfl, rfl, rfl, rfl⟩, fun hp => absurd hp hne⟩
  · exact ⟨by rw [hp]; trivial, ⟨rfl, rfl, rfl⟩, fun hne => absurd hp hne, fun hexec => by simp [hp] at hexec⟩
  · obtain ⟨hparams, hphase, hsrc, hinput, hasm⟩ := cpuStep_frame hc
    exact ⟨by rw [hphase, hp]; trivial, ⟨hparams, hsrc, hinput⟩, fun _ hne => absurd hp hne, fun _ => hasm⟩

end Sys2Proof.Proofs
end
